-- ==== Sys2Proof/Word.lean ====
section
/-! DEFINITION. Word.lean: the two widths of this hardware (00_scope.md R15).

Every register, flag word, address and memory cell is an 8-bit unsigned value; a register is
named by a 3-bit index.  The sum and difference of the type `Byte` are the spec's `+8` and `-8`:
the exact result reduced modulo 256 (R17, R53).
DESIGN CHOICE (unsafe): every address, pc and SP wrap, by the spec's decision D1 (log entry 2). -/

namespace Sys2Proof

/-- An 8-bit unsigned value: register contents, flags, memory cells and addresses (R15). -/
abbrev Byte := BitVec 8

/-- The index of one of the eight general registers (R21, R22). -/
abbrev Reg := Fin 8

end Sys2Proof
end

