-- ==== Sys2Proof/Config.lean ====
section
/-! DEFINITION. Config.lean: the named parameters of 00_scope.md R15.

The spec leaves no value undefined (10_state.md R37; 93_implementation_defined.md), so this model
has no free value.  The opcode byte values are a parameter (30_encoding.md R86): their TYPE is
`OpcodeMap` here, the table of values is `Sys2Proof.opcodeMap` in Decode.lean. -/

namespace Sys2Proof

/-- The mnemonic tags of the thirteen instructions (00_scope.md R11, 30_encoding.md R91). -/
inductive Mnemonic where
  | add | mul | cmp | ldi | prn | push | pop | call | ret | jmp | jeq | jne | hlt
  deriving DecidableEq, Repr

/-- All thirteen tags, in the order of the opcode table (30_encoding.md R86). -/
def Mnemonic.all : List Mnemonic :=
  [.add, .mul, .cmp, .ldi, .prn, .push, .pop, .call, .ret, .jmp, .jeq, .jne, .hlt]

/-- How many operand bytes belong to the instruction (30_encoding.md R82, R87 first point). -/
def Mnemonic.operandCount : Mnemonic → Nat
  | .add => 2 | .mul => 2 | .cmp => 2 | .ldi => 2
  | .prn => 1 | .push => 1 | .pop => 1 | .call => 1 | .jmp => 1 | .jeq => 1 | .jne => 1
  | .ret => 0 | .hlt => 0

/-- The column "Sets PC directly?" of the instruction list (30_encoding.md R87, second and third
points; 40_cycle.md R106, R107). -/
def Mnemonic.setsPc : Mnemonic → Bool
  | .call => true | .ret => true | .jmp => true | .jeq => true | .jne => true
  | .add => false | .mul => false | .cmp => false | .ldi => false
  | .prn => false | .push => false | .pop => false | .hlt => false

/-- The parameter `OPCODE_MAP`: one opcode byte for each instruction (30_encoding.md R86). -/
structure OpcodeMap where
  add  : Byte
  mul  : Byte
  cmp  : Byte
  ldi  : Byte
  prn  : Byte
  push : Byte
  pop  : Byte
  call : Byte
  ret  : Byte
  jmp  : Byte
  jeq  : Byte
  jne  : Byte
  hlt  : Byte
  deriving DecidableEq, Repr

/-- The opcode byte a map gives to a tag. -/
def OpcodeMap.byteOf (m : OpcodeMap) : Mnemonic → Byte
  | .add => m.add | .mul => m.mul | .cmp => m.cmp | .ldi => m.ldi | .prn => m.prn
  | .push => m.push | .pop => m.pop | .call => m.call | .ret => m.ret | .jmp => m.jmp
  | .jeq => m.jeq | .jne => m.jne | .hlt => m.hlt

/-- `SP_RESET`, the value of R7 at reset (10_state.md R36).
UNVERIFIED (unsafe): the source's numeric literals are unaudited (log entry 12). -/
def Config.spReset : Byte := 244

/-- What a memory cell holds at reset, so what an address that the memory list does not list reads
as: 0 (10_state.md R36, "RAM zeroed"). -/
def Config.resetByte : Byte := 0

/-- The number of memory cells (00_scope.md R15, 20_memory.md R50). -/
def Config.memorySize : Nat := 256

/-- The cause code of IllegalOpcode (60_exceptions.md R220, decision D5).  No register holds it. -/
def Config.illegalOpcodeCause : Nat := 1

end Sys2Proof
end

