-- ==== Sys2Proof/Syntax.lean ====
section
/-! DEFINITION. Syntax.lean: the instruction set, one constructor for each row of
spec/opcode_table.json (00_scope.md R11, 30_encoding.md R82). -/

namespace Sys2Proof

/-- The thirteen instructions, with their operands as decode delivers them: a register operand is
the index `operand byte & 7` (10_state.md R22), the immediate is the whole byte (30_encoding.md R84). -/
inductive Instr where
  /-- ADD (41_alu.md R121): register `a` is destination and first source. -/
  | add (a b : Reg)
  /-- MUL (41_alu.md R122). -/
  | mul (a b : Reg)
  /-- CMP (41_alu.md R123). -/
  | cmp (a b : Reg)
  /-- LDI (42_data.md R140). -/
  | ldi (r : Reg) (imm : Byte)
  /-- PRN (42_data.md R141). -/
  | prn (r : Reg)
  /-- PUSH (43_stack.md R161). -/
  | push (r : Reg)
  /-- POP (43_stack.md R162). -/
  | pop (r : Reg)
  /-- CALL (44_control.md R181). -/
  | call (r : Reg)
  /-- RET (44_control.md R182). -/
  | ret
  /-- JMP (44_control.md R183). -/
  | jmp (r : Reg)
  /-- JEQ (44_control.md R184). -/
  | jeq (r : Reg)
  /-- JNE (44_control.md R185). -/
  | jne (r : Reg)
  /-- HLT (44_control.md R186). -/
  | hlt
  deriving DecidableEq, Repr

/-- The mnemonic tag of an instruction (30_encoding.md R91). -/
def Instr.mnemonic : Instr → Mnemonic
  | .add _ _ => .add
  | .mul _ _ => .mul
  | .cmp _ _ => .cmp
  | .ldi _ _ => .ldi
  | .prn _ => .prn
  | .push _ => .push
  | .pop _ => .pop
  | .call _ => .call
  | .ret => .ret
  | .jmp _ => .jmp
  | .jeq _ => .jeq
  | .jne _ => .jne
  | .hlt => .hlt

end Sys2Proof
end

