-- ==== Sys2Proof/WellFormed.lean ====
section
/-! DEFINITION. WellFormed.lean: what must be checked before the machine can be trusted.

A register operand is a `Fin 8` and an immediate a `Byte`, so every term of `Instr` has its operands
in range.  What can be wrong is the parameter that gives an instruction its bytes: "A replacement
`OPCODE_MAP` must keep the same properties, or the rules of 40_cycle.md give wrong pc values"
(30_encoding.md R87).  And a program image can be too long (70_reset_and_hazards.md R241). -/

namespace Sys2Proof

/-- First check: bits 7:6 of the tag's byte are the tag's operand count (R87 first point). -/
def OpcodeMap.countAgrees (m : OpcodeMap) (t : Mnemonic) : Bool :=
  ((m.byteOf t) >>> 6).toNat == t.operandCount

/-- Second check: bit 4 of the tag's byte is set exactly for the tags that set pc (R87 second and
third points). -/
def OpcodeMap.setsPcAgrees (m : OpcodeMap) (t : Mnemonic) : Bool :=
  (m.byteOf t).getLsbD 4 == t.setsPc

/-- Third check: no two tags have the same byte (R87, "All thirteen values are distinct"). -/
def OpcodeMap.distinct (m : OpcodeMap) : Bool :=
  decide (Mnemonic.all.map m.byteOf).Nodup

/-- A map that keeps every property of R87. -/
def OpcodeMap.wf (m : OpcodeMap) : Bool :=
  m.distinct && Mnemonic.all.all (fun t => m.countAgrees t && m.setsPcAgrees t)

/-- An instruction is well-formed under a map when the byte the map gives it has its operand count
and its sets-PC bit (R87). -/
def Instr.wfUnder (m : OpcodeMap) (i : Instr) : Bool :=
  m.countAgrees i.mnemonic && m.setsPcAgrees i.mnemonic

/-- Fourth check: the program image fits the memory (R241, decision D19). -/
def imageFits (image : List Byte) : Bool :=
  decide (image.length ≤ Config.memorySize)

end Sys2Proof
end

