-- ==== Sys2Proof/Decode.lean ====
section
/-! DEFINITION. Decode.lean: from the three fetched bytes to an instruction, and back
(30_encoding.md R80 to R91). -/

namespace Sys2Proof

/-- What the fetch unit reads in every step: the opcode byte and both operand bytes, whatever the
instruction's length (30_encoding.md R85, 40_cycle.md R101, R103). -/
structure Fetched where
  op : Byte
  a  : Byte
  b  : Byte
  deriving DecidableEq, Repr

/-- What decode delivers for a legal opcode: the instruction (its tag with its operands), the operand
count and the sets-PC flag (30_encoding.md R91). -/
structure Descriptor where
  instr        : Instr
  operandCount : Nat
  setsPc       : Bool
  deriving DecidableEq, Repr

/-- Why decode rejects: the byte is not one of the thirteen opcodes (30_encoding.md R88). -/
inductive DecodeError where
  | illegalOpcode (opcode : Byte)
  deriving DecidableEq, Repr

/-- `OPCODE_MAP`, the opcode byte of each instruction (30_encoding.md R86).
PRESUMED (unsafe): the values come from the published LS-8, not from the source (decision D2, log
entry 1). -/
def opcodeMap : OpcodeMap where
  add  := 0b10100000
  mul  := 0b10100010
  cmp  := 0b10100111
  ldi  := 0b10000010
  prn  := 0b01000111
  push := 0b01000101
  pop  := 0b01000110
  call := 0b01010000
  ret  := 0b00010001
  jmp  := 0b01010100
  jeq  := 0b01010101
  jne  := 0b01010110
  hlt  := 0b00000001

/-- Field AA, bits 7:6: the operand count (30_encoding.md R81, 40_cycle.md R102). -/
def opCount (op : Byte) : Nat := (op >>> 6).toNat

/-- Field B, bit 5: set for the ALU group.  Descriptive only, no rule reads it (R81, decision D20). -/
def opAluBit (op : Byte) : Bool := op.getLsbD 5

/-- Field C, bit 4: "sets PC directly" (30_encoding.md R81, 40_cycle.md R106, R107). -/
def opSetsPc (op : Byte) : Bool := op.getLsbD 4

/-- Field DDDD, bits 3:0: the identifier within the group.  Descriptive only (R81, decision D20). -/
def opIdent (op : Byte) : Nat := (op &&& 0x0F#8).toNat

/-- A register operand byte names register `b & 7`; bits 7:3 are ignored (10_state.md R22,
30_encoding.md R83).
DEDUCED (unsafe): the mask applies to every register operand, by 90_conflicts.md C2 (log entry 18). -/
def regOperand (b : Byte) : Reg := Fin.ofNat 8 (b &&& 7#8).toNat

/-- The immediate operand is the whole byte, unextended (30_encoding.md R84). -/
def immOperand (b : Byte) : Byte := b

/-- The tag whose byte is exactly the fetched opcode, all 8 bits compared (30_encoding.md R88).
DESIGN CHOICE (unsafe): an exact match of the whole byte, by the spec's decision D3 (log entry 3). -/
def OpcodeMap.tagOf (m : OpcodeMap) (op : Byte) : Option Mnemonic :=
  Mnemonic.all.find? (fun t => m.byteOf t == op)

/-- The instruction of a tag with its operand bytes: formats N, R, RI and RR (30_encoding.md R82).
An operand byte the format does not have is not looked at (R85). -/
def assemble (t : Mnemonic) (a b : Byte) : Instr :=
  match t with
  | .add => .add (regOperand a) (regOperand b)
  | .mul => .mul (regOperand a) (regOperand b)
  | .cmp => .cmp (regOperand a) (regOperand b)
  | .ldi => .ldi (regOperand a) (immOperand b)
  | .prn => .prn (regOperand a)
  | .push => .push (regOperand a)
  | .pop => .pop (regOperand a)
  | .call => .call (regOperand a)
  | .ret => .ret
  | .jmp => .jmp (regOperand a)
  | .jeq => .jeq (regOperand a)
  | .jne => .jne (regOperand a)
  | .hlt => .hlt

/-- Decode under a given `OPCODE_MAP` (30_encoding.md R88, R91; 40_cycle.md R104). -/
def decodeWith (m : OpcodeMap) (f : Fetched) : Except DecodeError Descriptor :=
  match m.tagOf f.op with
  | none => .error (.illegalOpcode f.op)
  | some t =>
    .ok { instr := assemble t f.a f.b, operandCount := opCount f.op, setsPc := opSetsPc f.op }

/-- Decode of this hardware. -/
def decode (f : Fetched) : Except DecodeError Descriptor := decodeWith opcodeMap f

/-! The encoder (the normal form of 30_encoding.md R92: a register operand assembles to its number). -/

/-- The operand byte of a register: bits 7:3 are written 0 (R92).
DESIGN CHOICE (safe): the encoder writes the ignored bits as 0 (decision D15, log entry 16). -/
def regByte (r : Reg) : Byte := BitVec.ofNat 8 r.val

/-- The operand bytes of an instruction, operand A first (30_encoding.md R82). -/
def operandBytes : Instr → List Byte
  | .add a b => [regByte a, regByte b]
  | .mul a b => [regByte a, regByte b]
  | .cmp a b => [regByte a, regByte b]
  | .ldi r imm => [regByte r, imm]
  | .prn r => [regByte r]
  | .push r => [regByte r]
  | .pop r => [regByte r]
  | .call r => [regByte r]
  | .ret => []
  | .jmp r => [regByte r]
  | .jeq r => [regByte r]
  | .jne r => [regByte r]
  | .hlt => []

/-- The bytes of an instruction under a given `OPCODE_MAP`, at ascending addresses. -/
def encodeWith (m : OpcodeMap) (i : Instr) : List Byte :=
  m.byteOf i.mnemonic :: operandBytes i

/-- The bytes of an instruction of this hardware. -/
def encode (i : Instr) : List Byte := encodeWith opcodeMap i

/-- The descriptor the spec gives an instruction: its operand count and its sets-PC column, read
from the instruction list and not from a byte (30_encoding.md R87, R91). -/
def describe (i : Instr) : Descriptor where
  instr := i
  operandCount := i.mnemonic.operandCount
  setsPc := i.mnemonic.setsPc

/-- The first three bytes of a byte list, as the fetch unit would read them (a missing byte is 0). -/
def Fetched.ofBytes (bs : List Byte) : Fetched where
  op := bs.getD 0 0
  a := bs.getD 1 0
  b := bs.getD 2 0

/-- The three bytes of an instruction word numbered as spec/opcode_table.json numbers it: bits 7:0
are the opcode byte, 15:8 operand A, 23:16 operand B; bits from `nbits` up are 0. -/
def Fetched.ofWord (nbits w : Nat) : Fetched where
  op := BitVec.ofNat 8 (w % 2 ^ nbits)
  a := BitVec.ofNat 8 (w % 2 ^ nbits / 256)
  b := BitVec.ofNat 8 (w % 2 ^ nbits / 65536)

/-- The instruction this decoder reads from an opcode-table word. -/
def decodeTableWord (nbits w : Nat) : Option Instr :=
  match decode (Fetched.ofWord nbits w) with
  | .ok d => some d.instr
  | .error _ => none

end Sys2Proof
end

