-- ==== Sys2Proof/Machine/State.lean ====
section
/-! DEFINITION. Machine/State.lean: the architectural state (10_state.md R20), its reset value (R36),
and the reasons a step can stop. -/

namespace Sys2Proof.Machine

/-- The fault record: the offending opcode byte and the pc it was fetched at (10_state.md R33). -/
structure FaultRecord where
  opcode : Byte
  pc     : Byte
  deriving DecidableEq, Repr

/-- The run state (10_state.md R32, decision D4).  The fault record is present only in FAULTED
(R20), so FAULTED carries it (90_conflicts.md C4).
DESIGN CHOICE (safe): the record is an argument of FAULTED, not a field beside it (log entry 6). -/
inductive RunState where
  | running
  | halted
  | faulted (record : FaultRecord)
  deriving DecidableEq, Repr

/-- The memory: the cells that differ from `Config.resetByte`, addresses strictly rising.  Its reads,
writes and canonical form are in Machine/Ops.lean.
DESIGN CHOICE (safe): a sorted list stands for the 256 cells (log entry 11). -/
abbrev Memory := List Host.Cell

/-- Why the machine stops.  No INSTRUCTION of this hardware ends in one of these: they say that no
step exists. -/
inductive Fault where
  /-- Raised by `step` alone, when `run` is HALTED: "In HALTED and FAULTED the block has no step"
  (40_cycle.md R100; DESIGN CHOICE, log entry 5).  Safe: the hardware has no step there either. -/
  | noStepHalted
  /-- Raised by `step` alone, when `run` is FAULTED (40_cycle.md R100, 60_exceptions.md R226).  Safe:
  the hardware has no step there either. -/
  | noStepFaulted (record : FaultRecord)
  deriving DecidableEq, Repr

/-- Why the model gives no meaning. -/
inductive Refusal where
  /-- Kept for an instruction without a meaning; no arm of `exec` raises it.  Safe: nothing is
  claimed of such a step. -/
  | notModelled (mnemonic : String)
  /-- Raised by `boot` and `loadImage` alone, for an image longer than 256 bytes, which has no meaning
  for the block (70_reset_and_hazards.md R241, decision D19).  Safe: no run starts. -/
  | imageTooLong (length : Nat)
  deriving DecidableEq, Repr

/-- The architectural state: "exactly these components, and nothing else persists from one step to
the next" (10_state.md R20). -/
structure State where
  /-- The general registers R0 to R7; R7 is SP (R21, R23). -/
  regs : Vector Byte 8
  /-- The program counter (R26). -/
  pc   : Byte
  /-- The flags register: bit 0 E, bit 1 G, bit 2 L, bits 7:3 always 0 (R27). -/
  fl   : Byte
  /-- The unified memory `ram[0..255]` (R31). -/
  mem  : Memory
  /-- The run state with, in FAULTED, the fault record (R32, R33). -/
  run  : RunState
  /-- The values emitted on the output port so far, oldest first (R34). -/
  out  : List Byte
  deriving DecidableEq, Repr

/-- The state right after reset, before the image load (10_state.md R36, 70_reset_and_hazards.md
R240). -/
def State.reset : State where
  regs := #v[0, 0, 0, 0, 0, 0, 0, Config.spReset]
  pc   := 0
  fl   := 0
  mem  := []
  run  := .running
  out  := []

end Sys2Proof.Machine
end

