-- ==== Sys2Proof/Machine/Operands.lean ====
section
/-! DEFINITION. Machine/Operands.lean: the register file, through which every register operand goes
(10_state.md R21 to R25), and the program counter.

The operand forms of this hardware are three (30_encoding.md R82 to R84): a register read for its
value, a register written, and LDI's immediate, which is the operand itself.  A jump target is the
first form: the full value of a register (44_control.md R180). -/

namespace Sys2Proof.Machine

/-- `x[r]`: the value of a general register (10_state.md R22; the masking of the operand byte is
`regOperand`).  R7 is read like any other (R23). -/
def State.reg (s : State) (r : Reg) : Byte := s.regs[r]

/-- `x[r] <- v`.  None is hardwired, and R7 is written like any other (10_state.md R21, R23).
DESIGN CHOICE (unsafe): the convention on R7 is not enforced, by the spec's decision D14 (log entry 15). -/
def State.setReg (s : State) (r : Reg) (v : Byte) : State := { s with regs := s.regs.set r v }

/-- The index of the stack pointer (10_state.md R23). -/
def spReg : Reg := 7

/-- `SP`, another name for `x[7]` (00_scope.md R17). -/
def State.sp (s : State) : Byte := s.reg spReg

/-- `SP <- v` is `x[7] <- v` (00_scope.md R17). -/
def State.setSp (s : State) (v : Byte) : State := s.setReg spReg v

/-- `pc <- v` (10_state.md R26). -/
def State.setPc (s : State) (v : Byte) : State := { s with pc := v }

/-- The target of a jump, call or branch: "the full 8-bit value of a register" (44_control.md R180). -/
def State.target (s : State) (r : Reg) : Byte := s.reg r

end Sys2Proof.Machine
end

