-- ==== Sys2Proof/Machine/Flags.lean ====
section
/-! DEFINITION. Machine/Flags.lean: the flags register (10_state.md R27, R28) and the one flag
computation of this hardware, CMP's (41_alu.md R123).  ADD and MUL write no flag. -/

namespace Sys2Proof.Machine

/-- `fl <- v`. -/
def State.setFl (s : State) (v : Byte) : State := { s with fl := v }

/-- The E bit, bit 0 (10_state.md R27). -/
def State.flagE (s : State) : Bool := s.fl.getLsbD 0

/-- The G bit, bit 1 (10_state.md R27).  No instruction reads it (R28). -/
def State.flagG (s : State) : Bool := s.fl.getLsbD 1

/-- The L bit, bit 2 (10_state.md R27).  No instruction reads it (R28). -/
def State.flagL (s : State) : Bool := s.fl.getLsbD 2

/-- The whole flags byte CMP assigns: exactly one of E, G, L, by unsigned comparison (41_alu.md R123).
DESIGN CHOICE (unsafe): an assignment, where the original code toggled, by 90_conflicts.md C1 (log
entry 10). -/
def compareFlags (x y : Byte) : Byte :=
  if x = y then 0b00000001
  else if y.toNat < x.toNat then 0b00000010
  else 0b00000100

/-- `fl <- 0`, which JEQ and JNE do whether or not they branch (10_state.md R28). -/
def State.clearFlags (s : State) : State := s.setFl 0

end Sys2Proof.Machine
end

