-- ==== Sys2Proof/Machine/Ops.lean ====
section
/-! DEFINITION. Machine/Ops.lean: the operations every family shares: memory, stack pointer, output
port, run state, and taking the one exception.

There is no return from an exception beside it: "There is no trap-return instruction" and FAULTED is
terminal (60_exceptions.md R226). -/

namespace Sys2Proof.Machine

/-! Memory (20_memory.md R50 to R57). -/

/-- The value of the cell at a key; an unlisted cell holds what reset left in it. -/
def Memory.read : Memory → Nat → Byte
  | [], _ => Config.resetByte
  | (k, b) :: rest, a => if k = a then b else Memory.read rest a

/-- Put a cell before the first cell of a higher address. -/
def Memory.insert : Memory → Nat → Byte → Memory
  | [], a, v => [(a, v)]
  | (k, b) :: rest, a, v =>
    if k < a then (k, b) :: Memory.insert rest a v else (a, v) :: (k, b) :: rest

/-- Drop the cell at a key. -/
def Memory.erase (m : Memory) (a : Nat) : Memory := m.filter (fun c => c.1 != a)

/-- The memory with one cell changed, in canonical form: writing what an unlisted cell reads as leaves
the cell unlisted. -/
def Memory.write (m : Memory) (a : Nat) (v : Byte) : Memory :=
  if v = Config.resetByte then m.erase a else (m.erase a).insert a v

/-- The canonical form: addresses strictly rising, every address inside the memory, and no cell that
equals what an unlisted one reads as. -/
abbrev Memory.wf (m : Memory) : Prop :=
  m.Pairwise (fun c d => c.1 < d.1) ∧ ∀ c ∈ m, c.1 < Config.memorySize ∧ c.2 ≠ Config.resetByte

/-- `MemRead(addr, 1)`: no side effect, and every address exists (20_memory.md R51).  An address is
a `Byte`, so it is already reduced modulo 256 (R53; DESIGN CHOICE, unsafe, log entry 2), and no range is
reserved (R58; DESIGN CHOICE, unsafe, log entry 20). -/
def State.memRead (s : State) (addr : Byte) : Byte := s.mem.read addr.toNat

/-- `MemWrite(addr, 1, v)`: one cell takes the value, nothing else changes (20_memory.md R52). -/
def State.memWrite (s : State) (addr v : Byte) : State :=
  { s with mem := s.mem.write addr.toNat v }

/-! The stack (43_stack.md R160): the decrement and the increment wrap, with no limit check. -/

/-- `SP <- SP -8 1`. -/
def State.decSp (s : State) : State := s.setSp (s.sp - 1)

/-- `SP <- SP +8 1`. -/
def State.incSp (s : State) : State := s.setSp (s.sp + 1)

/-- Where a push stores: SP as the decrement leaves it. -/
def State.pushAddr (s : State) : Byte := s.decSp.sp

/-- `MemWrite(SP, 1, v)`. -/
def State.storeAtSp (s : State) (v : Byte) : State := s.memWrite s.sp v

/-- `MemRead(SP, 1)`. -/
def State.loadAtSp (s : State) : Byte := s.memRead s.sp

/-! Program counter, output and run state. -/

/-- The pc of the byte after a 2-byte instruction, which CALL pushes and an untaken branch takes
(44_control.md R181, R184, R185). -/
def State.pcPlus2 (s : State) : Byte := s.pc + 2

/-- `emit(v)`: one output event, after all earlier ones (10_state.md R34).
DESIGN CHOICE (unsafe): the port never stalls, by the spec's decision D7 (log entry 9). -/
def State.emit (s : State) (v : Byte) : State := { s with out := s.out ++ [v] }

/-- `run <- HALTED` (40_cycle.md R108). -/
def State.halt (s : State) : State := { s with run := .halted }

/-- Taking the one exception, `IllegalOpcode(opcode, pc)`: `run` becomes FAULTED with the record of the
opcode and of the pc it was fetched at, and nothing else changes; there is no handler, vector or saved
register (60_exceptions.md R220, R221, R225).
DESIGN CHOICE (unsafe): a next state in FAULTED, pc unchanged, by the spec's decisions D4 and D5 (log
entry 4). -/
def State.raiseIllegalOpcode (s : State) (opcode : Byte) : State :=
  { s with run := .faulted { opcode := opcode, pc := s.pc } }

/-- The component `fault` of 10_state.md R20: present only when `run` is FAULTED (R33). -/
def State.fault (s : State) : Option FaultRecord :=
  match s.run with
  | .running => none
  | .halted => none
  | .faulted r => some r

/-- The cause code of the exception taken, if one was (60_exceptions.md R220, decision D5). -/
def State.faultCause (s : State) : Option Nat := s.fault.map (fun _ => Config.illegalOpcodeCause)

end Sys2Proof.Machine
end

