-- ==== Sys2Proof/Machine/Cycle.lean ====
section
/-! DEFINITION. Machine/Cycle.lean: what every step does around the execute part: the fetch and the
program-counter advancement (40_cycle.md R101 to R107). -/

namespace Sys2Proof.Machine

/-- The fetch: the byte at pc and the two after it, addresses modulo 256, for every opcode
(40_cycle.md R101, R103). -/
def State.fetch (s : State) : Fetched where
  op := s.memRead s.pc
  a := s.memRead (s.pc + 1)
  b := s.memRead (s.pc + 2)

/-- Program-counter advancement after the execute part: by the operand count plus 1 unless the
instruction sets pc directly (40_cycle.md R106, R107). -/
def State.advancePc (s : State) (d : Descriptor) : State :=
  if d.setsPc then s else s.setPc (s.pc + BitVec.ofNat 8 (d.operandCount + 1))

/-- The advancement after an execute part that answered. -/
def advanceOutcome (d : Descriptor) (o : Host.Outcome State Fault Refusal) :
    Host.Outcome State Fault Refusal :=
  match o with
  | .next s => .next (s.advancePc d)
  | .fault f => .fault f
  | .refused r => .refused r

/-- The three bytes of a fetch stored at pc, pc + 1 and pc + 2 (modulo 256). -/
def State.storeFetched (s : State) (f : Fetched) : State :=
  ((s.memWrite s.pc f.op).memWrite (s.pc + 1) f.a).memWrite (s.pc + 2) f.b

end Sys2Proof.Machine
end

