-- ==== Sys2Proof/Machine/Alu.lean ====
section
/-! DEFINITION. Machine/Alu.lean: ADD, MUL and CMP (41_alu.md).  Only the execute part of the step:
the pc advance is `advancePc` in Machine/Cycle.lean. -/

namespace Sys2Proof.Machine

/-- `a +8 b`: the exact sum, reduced modulo 256 (00_scope.md R17, 41_alu.md R120). -/
def aluAdd (x y : Byte) : Byte := BitVec.ofNat 8 (x.toNat + y.toNat)

/-- `a *8 b`: the low byte of the exact product (00_scope.md R17, 41_alu.md R120). -/
def aluMul (x y : Byte) : Byte := BitVec.ofNat 8 (x.toNat * y.toNat)

/-- ADD (41_alu.md R121). -/
def execAdd (a b : Reg) (s : State) : Host.Outcome State Fault Refusal :=
  .next (s.setReg a (aluAdd (s.reg a) (s.reg b)))

/-- MUL (41_alu.md R122). -/
def execMul (a b : Reg) (s : State) : Host.Outcome State Fault Refusal :=
  .next (s.setReg a (aluMul (s.reg a) (s.reg b)))

/-- CMP (41_alu.md R123): the whole flags register is assigned. -/
def execCmp (a b : Reg) (s : State) : Host.Outcome State Fault Refusal :=
  .next (s.setFl (compareFlags (s.reg a) (s.reg b)))

end Sys2Proof.Machine
end

