-- ==== Sys2Proof/Machine/Control.lean ====
section
/-! DEFINITION. Machine/Control.lean: CALL, RET, JMP, JEQ, JNE and HLT (44_control.md), the execute
part.  The pc of the state is the address of the current instruction until a rule writes it. -/

namespace Sys2Proof.Machine

/-- CALL (44_control.md R181): SP is decremented, the return address is stored at the new SP, and
`x[r]` is read after the decrement.
DESIGN CHOICE (unsafe): CALL R7 jumps to the decremented SP, by the spec's decision D16 (log entry 8). -/
def execCall (r : Reg) (s : State) : Host.Outcome State Fault Refusal :=
  .next ((s.decSp.storeAtSp s.pcPlus2).setPc (s.decSp.target r))

/-- RET (44_control.md R182). -/
def execRet (s : State) : Host.Outcome State Fault Refusal :=
  .next (s.setPc s.loadAtSp).incSp

/-- JMP (44_control.md R183). -/
def execJmp (r : Reg) (s : State) : Host.Outcome State Fault Refusal :=
  .next (s.setPc (s.target r))

/-- JEQ (44_control.md R184): E decides, and the flags are cleared either way. -/
def execJeq (r : Reg) (s : State) : Host.Outcome State Fault Refusal :=
  .next (s.setPc (if s.flagE then s.target r else s.pcPlus2)).clearFlags

/-- JNE (44_control.md R185). -/
def execJne (r : Reg) (s : State) : Host.Outcome State Fault Refusal :=
  .next (s.setPc (if s.flagE then s.pcPlus2 else s.target r)).clearFlags

/-- HLT (44_control.md R186).
DESIGN CHOICE (unsafe): the step advances pc all the same (40_cycle.md R106, R108), by the spec's
decision D8 (log entry 7).
DEDUCED (safe): HALTED is set here, before that advance, which no one can observe (log entry 17). -/
def execHlt (s : State) : Host.Outcome State Fault Refusal :=
  .next s.halt

end Sys2Proof.Machine
end

