-- ==== Sys2Proof/Machine/Data.lean ====
section
/-! DEFINITION. Machine/Data.lean: LDI and PRN (42_data.md), the execute part. -/

namespace Sys2Proof.Machine

/-- LDI (42_data.md R140). -/
def execLdi (r : Reg) (imm : Byte) (s : State) : Host.Outcome State Fault Refusal :=
  .next (s.setReg r imm)

/-- PRN (42_data.md R141). -/
def execPrn (r : Reg) (s : State) : Host.Outcome State Fault Refusal :=
  .next (s.emit (s.reg r))

end Sys2Proof.Machine
end

