-- ==== Sys2Proof/Machine/Stack.lean ====
section
/-! DEFINITION. Machine/Stack.lean: PUSH and POP (43_stack.md), the execute part.  The statements of
each rule's pseudocode take effect in the order written (00_scope.md R18), which decides what
PUSH R7 and POP R7 do.
DESIGN CHOICE (unsafe): that order, for R7, is the spec's decision D16 (log entry 8). -/

namespace Sys2Proof.Machine

/-- PUSH (43_stack.md R161): SP is decremented, then `x[r]` is read and stored at the new SP. -/
def execPush (r : Reg) (s : State) : Host.Outcome State Fault Refusal :=
  .next (s.decSp.storeAtSp (s.decSp.reg r))

/-- POP (43_stack.md R162): `x[r]` takes the byte at SP, then SP, as it is now, is incremented. -/
def execPop (r : Reg) (s : State) : Host.Outcome State Fault Refusal :=
  .next (s.setReg r s.loadAtSp).incSp

end Sys2Proof.Machine
end

