-- ==== Sys2Proof/Machine/Step.lean ====
section
/-! DEFINITION. Machine/Step.lean: the step of 40_cycle.md R109. -/

namespace Sys2Proof.Machine

/-- One step: it exists only in RUNNING (40_cycle.md R100); an unknown opcode takes the exception
(R104); else the decoded instruction is executed (R105) and pc advanced (R106, R107). -/
def step (s : State) : Host.Outcome State Fault Refusal :=
  match s.run with
  | .halted => .fault .noStepHalted
  | .faulted r => .fault (.noStepFaulted r)
  | .running =>
    match decode s.fetch with
    | .error (.illegalOpcode op) => .next (s.raiseIllegalOpcode op)
    | .ok d => advanceOutcome d (exec d.instr s)

/-- The state whose next step fetches an opcode-table word: its three bytes (0 from bit `nbits` up)
stand at pc, and `run` is RUNNING, without which there is no step.
DESIGN CHOICE (safe): this stands for the host's load of one instruction (log entry 13). -/
def State.withFetchWord (s : State) (nbits w : Nat) : State :=
  { s.storeFetched (Fetched.ofWord nbits w) with run := .running }

end Sys2Proof.Machine
end

