-- ==== Sys2Proof/Machine/Assembler.lean ====
section
/-! DEFINITION. Machine/Assembler.lean: the normal form of the assembly syntax (30_encoding.md R92,
decision D15).  It has no effect on the machine; it gives each instruction its text and each line of text
its instruction.  Text is a list of characters.
DESIGN CHOICE (safe): spaces after the comma are optional and mnemonics are upper case (log entry 21). -/

namespace Sys2Proof.Machine

/-- The spelling of a mnemonic (30_encoding.md R86, R92). -/
def mnemonicText : Mnemonic → List Char
  | .add => ['A', 'D', 'D']
  | .mul => ['M', 'U', 'L']
  | .cmp => ['C', 'M', 'P']
  | .ldi => ['L', 'D', 'I']
  | .prn => ['P', 'R', 'N']
  | .push => ['P', 'U', 'S', 'H']
  | .pop => ['P', 'O', 'P']
  | .call => ['C', 'A', 'L', 'L']
  | .ret => ['R', 'E', 'T']
  | .jmp => ['J', 'M', 'P']
  | .jeq => ['J', 'E', 'Q']
  | .jne => ['J', 'N', 'E']
  | .hlt => ['H', 'L', 'T']

/-- The character of a decimal digit. -/
def digitChar (n : Nat) : Char := Char.ofNat (48 + n % 10)

/-- A number up to 999 in decimal, without leading zeros. -/
def decimalText (n : Nat) : List Char :=
  if n < 10 then [digitChar n]
  else if n < 100 then [digitChar (n / 10), digitChar n]
  else [digitChar (n / 100), digitChar (n / 10), digitChar n]

/-- A register name, R0 to R7. -/
def regText (r : Reg) : List Char := ['R', digitChar r.val]

/-- The operand texts of an instruction, first operand first. -/
def operandTexts : Instr → List (List Char)
  | .add a b => [regText a, regText b]
  | .mul a b => [regText a, regText b]
  | .cmp a b => [regText a, regText b]
  | .ldi r imm => [regText r, decimalText imm.toNat]
  | .prn r => [regText r]
  | .push r => [regText r]
  | .pop r => [regText r]
  | .call r => [regText r]
  | .ret => []
  | .jmp r => [regText r]
  | .jeq r => [regText r]
  | .jne r => [regText r]
  | .hlt => []

/-- `MNEMONIC`, `MNEMONIC Rn` or `MNEMONIC Rn, operand` (R92). -/
def asmText (i : Instr) : List Char :=
  match operandTexts i with
  | [] => mnemonicText i.mnemonic
  | [x] => mnemonicText i.mnemonic ++ [' '] ++ x
  | x :: y :: _ => mnemonicText i.mnemonic ++ [' '] ++ x ++ [',', ' '] ++ y

/-- The text before the first occurrence of a character, and the text after it if there is one. -/
def splitAtChar (c : Char) : List Char → List Char × Option (List Char)
  | [] => ([], none)
  | x :: xs =>
    if x = c then ([], some xs)
    else (x :: (splitAtChar c xs).1, (splitAtChar c xs).2)

/-- Text without its leading spaces. -/
def dropSpaces : List Char → List Char
  | [] => []
  | x :: xs => if x = ' ' then dropSpaces xs else x :: xs

/-- The value of a digit in a base up to 16, letters of either case. -/
def digitValue (base : Nat) (c : Char) : Option Nat :=
  let n := c.toNat
  let v := if 48 ≤ n ∧ n ≤ 57 then n - 48
    else if 97 ≤ n ∧ n ≤ 102 then n - 87
    else if 65 ≤ n ∧ n ≤ 70 then n - 55
    else base
  if v < base then some v else none

/-- The number of a digit text, read from the left onto `acc`. -/
def readDigits (base : Nat) : Nat → List Char → Option Nat
  | acc, [] => some acc
  | acc, c :: cs =>
    match digitValue base c with
    | none => none
    | some v => readDigits base (acc * base + v) cs

/-- An immediate: 0 to 255 in decimal, `0x` hex or `0b` binary (R92). -/
def readImm (t : List Char) : Option Byte :=
  let n := match t with
    | [] => none
    | ['0', 'x'] => none
    | ['0', 'b'] => none
    | '0' :: 'x' :: ds => readDigits 16 0 ds
    | '0' :: 'b' :: ds => readDigits 2 0 ds
    | ds => readDigits 10 0 ds
  match n with
  | none => none
  | some v => if v < 256 then some (BitVec.ofNat 8 v) else none

/-- A register name: R0 to R7, or SP for R7, in either case (R92). -/
def readReg (t : List Char) : Option Reg :=
  match t with
  | [x, y] =>
    if (x = 'S' ∨ x = 's') ∧ (y = 'P' ∨ y = 'p') then some 7
    else if x = 'R' ∨ x = 'r' then (digitValue 8 y).map (Fin.ofNat 8)
    else none
  | _ => none

/-- The operands of a line: what follows the mnemonic's space, split at the comma. -/
def readOperands : Option (List Char) → List (List Char)
  | none => []
  | some t =>
    match splitAtChar ',' t with
    | (x, none) => [dropSpaces x]
    | (x, some y) => [dropSpaces x, dropSpaces y]

/-- The instruction of a mnemonic with its operand texts; none where the format differs (R92, R82). -/
def readInstr (t : Mnemonic) (ops : List (List Char)) : Option Instr :=
  match t, ops with
  | .add, [x, y] => (readReg x).bind fun a => (readReg y).map fun b => .add a b
  | .mul, [x, y] => (readReg x).bind fun a => (readReg y).map fun b => .mul a b
  | .cmp, [x, y] => (readReg x).bind fun a => (readReg y).map fun b => .cmp a b
  | .ldi, [x, y] => (readReg x).bind fun r => (readImm y).map fun v => .ldi r v
  | .prn, [x] => (readReg x).map .prn
  | .push, [x] => (readReg x).map .push
  | .pop, [x] => (readReg x).map .pop
  | .call, [x] => (readReg x).map .call
  | .jmp, [x] => (readReg x).map .jmp
  | .jeq, [x] => (readReg x).map .jeq
  | .jne, [x] => (readReg x).map .jne
  | .ret, [] => some .ret
  | .hlt, [] => some .hlt
  | _, _ => none

/-- The instruction of one line in the normal form of R92. -/
def assembleLine (line : List Char) : Option Instr :=
  match Mnemonic.all.find? (fun t => mnemonicText t == (splitAtChar ' ' line).1) with
  | none => none
  | some t => readInstr t (readOperands (splitAtChar ' ' line).2)

end Sys2Proof.Machine
end

