-- ==== Sys2Proof/Machine/Run.lean ====
section
/-! DEFINITION. Machine/Run.lean: what the host does with the block: it loads an image before the first
step, keeps stepping, and reads the final state (10_state.md R35, 70_reset_and_hazards.md R240, R241,
R246, R247; 40_cycle.md R111, R112). -/

namespace Sys2Proof.Machine

/-- Bytes written at ascending addresses from `a` (70_reset_and_hazards.md R240). -/
def Memory.writeFrom : Memory → Nat → List Byte → Memory
  | m, _, [] => m
  | m, a, v :: vs => Memory.writeFrom (m.write a v) (a + 1) vs

/-- The image load, before the first step: the program bytes at addresses 0, 1, 2, …; an image longer
than the memory has no meaning and is refused (10_state.md R35, 70_reset_and_hazards.md R241).
DESIGN CHOICE (safe): the refusal is the spec's decision D19 (log entry 14). -/
def loadImage (image : List Byte) (s : State) : Host.Outcome State Fault Refusal :=
  if imageFits image then .next { s with mem := s.mem.writeFrom 0 image }
  else .refused (.imageTooLong image.length)

/-- Reset and image load: the state a run starts from (70_reset_and_hazards.md R240). -/
def boot (image : List Byte) : Host.Outcome State Fault Refusal := loadImage image State.reset

/-- What a run under fuel reports (40_cycle.md R112): its final state, or that the fuel ran out. -/
inductive RunAnswer where
  | ended (final : State)
  | noAnswer
  deriving DecidableEq, Repr

/-- Steps until the first state whose `run` is HALTED or FAULTED (40_cycle.md R111); running out of fuel
is "no answer", never an end of run (R112).
DESIGN CHOICE (safe): a step that a RUNNING state did not have would be "no answer" too; no such state
exists. -/
def runFuel : Nat → State → RunAnswer
  | fuel, s =>
    match s.run with
    | .halted => .ended s
    | .faulted _ => .ended s
    | .running =>
      match fuel with
      | 0 => .noAnswer
      | n + 1 =>
        match step s with
        | .next t => runFuel n t
        | .fault _ => .noAnswer
        | .refused _ => .noAnswer

/-- The host's reading of a final state (70_reset_and_hazards.md R247): the exit code, the diagnostic's
two values if there is one, and the values of the output lines in order. -/
structure HostResult where
  exitCode   : Nat
  diagnostic : Option FaultRecord
  lines      : List Byte
  deriving DecidableEq, Repr

/-- HALTED reads as exit 0, FAULTED as exit 1 with a diagnostic; a state that is not final has no
reading (70_reset_and_hazards.md R246, R247). -/
def hostResult (s : State) : Option HostResult :=
  match s.run with
  | .running => none
  | .halted => some { exitCode := 0, diagnostic := none, lines := s.out }
  | .faulted r => some { exitCode := 1, diagnostic := some r, lines := s.out }

end Sys2Proof.Machine
end

