-- ==== Sys2Proof/Safety.lean ====
section
/-! DEFINITION. Safety.lean: the terms in which claims about this machine are made: the invariant, what
an end of run is, what an instruction may read and write, and when two states agree. -/

namespace Sys2Proof.Machine

/-! The invariant. -/

/-- `fl` is one of the four values of 10_state.md R27. -/
abbrev FlagsLegal (v : Byte) : Prop := v = 0x00 ∨ v = 0x01 ∨ v = 0x02 ∨ v = 0x04

/-- What every step keeps: the memory is in canonical form, and `fl` is one of 0x00, 0x01, 0x02, 0x04
(10_state.md R27). -/
abbrev State.Inv (s : State) : Prop := s.mem.wf ∧ FlagsLegal s.fl

/-! Runs. -/

/-- One step leads from `s` to `t` (40_cycle.md R109). -/
def StepsTo (s t : State) : Prop := step s = .next t

/-- `t` is reached from `s` by zero or more steps (40_cycle.md R111). -/
def Reaches (s t : State) : Prop := Relation.ReflTransGen StepsTo s t

/-- `s` occurs in the run of some image that fits (40_cycle.md R111, 70_reset_and_hazards.md R240). -/
def Reachable (s : State) : Prop := ∃ image start, boot image = .next start ∧ Reaches start s

/-- A final state (40_cycle.md R111). -/
def State.Final (s : State) : Prop := s.run ≠ .running

/-- A normal end (40_cycle.md R111: "A final HALTED state is a normal end"). -/
def State.NormalEnd (s : State) : Prop := s.run = .halted

/-- A safe run from `s`: no state of it is FAULTED (40_cycle.md R111: "A final FAULTED state is an error
end"). -/
def SafeFrom (s : State) : Prop := ∀ t, Reaches s t → t.fault = none

/-! When states agree. -/

/-- Every byte of memory reads the same. -/
def SameMemory (s t : State) : Prop := ∀ a, t.memRead a = s.memRead a

/-- Every byte of memory but one reads the same. -/
def SameMemoryExcept (s t : State) (addr : Byte) : Prop := ∀ a, a ≠ addr → t.memRead a = s.memRead a

/-- Every register but those listed holds the same. -/
def SameRegsExcept (s t : State) (rs : List Reg) : Prop := ∀ r, r ∉ rs → t.reg r = s.reg r

/-- The thirteen legal opcode bytes of 30_encoding.md R86, written out and not read from
`opcodeMap` (decision D2). -/
def legalOpcodes : List Byte :=
  [0xA0, 0xA2, 0xA7, 0x82, 0x47, 0x45, 0x46, 0x50, 0x11, 0x54, 0x55, 0x56, 0x01]

/-! What an instruction may touch, as the spec's tables list it. -/

/-- The registers an instruction's execute part reads (10_state.md R24). -/
def regReads : Instr → List Reg
  | .add a b => [a, b]
  | .mul a b => [a, b]
  | .cmp a b => [a, b]
  | .ldi _ _ => []
  | .prn r => [r]
  | .push r => [7, r]
  | .pop _ => [7]
  | .call r => [7, r]
  | .ret => [7]
  | .jmp r => [r]
  | .jeq r => [r]
  | .jne r => [r]
  | .hlt => []

/-- The registers an instruction writes (10_state.md R24). -/
def regWrites : Instr → List Reg
  | .add a _ => [a]
  | .mul a _ => [a]
  | .cmp _ _ => []
  | .ldi r _ => [r]
  | .prn _ => []
  | .push _ => [7]
  | .pop r => [r, 7]
  | .call _ => [7]
  | .ret => [7]
  | .jmp _ => []
  | .jeq _ => []
  | .jne _ => []
  | .hlt => []

/-- The memory cells an instruction's execute part reads (20_memory.md R54). -/
def memReads : Instr → State → List Byte
  | .pop _, s => [s.sp]
  | .ret, s => [s.sp]
  | .add _ _, _ => []
  | .mul _ _, _ => []
  | .cmp _ _, _ => []
  | .ldi _ _, _ => []
  | .prn _, _ => []
  | .push _, _ => []
  | .call _, _ => []
  | .jmp _, _ => []
  | .jeq _, _ => []
  | .jne _, _ => []
  | .hlt, _ => []

/-- The memory cells an instruction writes (20_memory.md R54: PUSH and CALL, at SP after the
decrement). -/
def memWrites : Instr → State → List Byte
  | .push _, s => [s.pushAddr]
  | .call _, s => [s.pushAddr]
  | .add _ _, _ => []
  | .mul _ _, _ => []
  | .cmp _ _, _ => []
  | .ldi _ _, _ => []
  | .prn _, _ => []
  | .pop _, _ => []
  | .ret, _ => []
  | .jmp _, _ => []
  | .jeq _, _ => []
  | .jne _, _ => []
  | .hlt, _ => []

/-! Sequences of execute parts. -/

/-- The execute parts of a list of instructions, one after another, stopping at the first fault or
refusal (20_memory.md R60: each is complete before the next). -/
def execAll : List Instr → State → Host.Outcome State Fault Refusal
  | [], s => .next s
  | i :: is, s =>
    match exec i s with
    | .next t => execAll is t
    | .fault f => .fault f
    | .refused r => .refused r

/-- The next state of an outcome, if it is one. -/
def nextState? (o : Host.Outcome State Fault Refusal) : Option State :=
  match o with
  | .next s => some s
  | .fault _ => none
  | .refused _ => none

end Sys2Proof.Machine
end

