-- ==== Sys2Proof/Certificates/Slice0/Obligations.lean ====
section
/-! DEFINITION. Certificates/Slice0/Obligations.lean: the statements for the provers.

Each docstring names the rule it formalises.  `Reg` literals name registers; `7` is SP.  A statement that
rests on one of the spec's own decisions (92_eei_decisions.md) or on an inference the spec marks as
derived has basis 'derived' in OBLIGATIONS.json, and its title names the decision. -/

open Sys2Proof Sys2Proof.Machine

/-! ## Encoding -/

/-- 30_encoding.md R86, R82 to R84: the byte written out for each instruction, followed by any operand
bytes, decodes to that instruction with the registers `operand mod 8` and the whole immediate.  The
byte values are the spec's decision D2 (log entry 1). -/
def Obligations.EveryOpcodeByteDecodesWithItsOperandFields : Prop :=
  ∀ A B : Byte,
    decode ⟨0xA0, A, B⟩ = .ok ⟨.add (Fin.ofNat 8 A.toNat) (Fin.ofNat 8 B.toNat), 2, false⟩ ∧
    decode ⟨0xA2, A, B⟩ = .ok ⟨.mul (Fin.ofNat 8 A.toNat) (Fin.ofNat 8 B.toNat), 2, false⟩ ∧
    decode ⟨0xA7, A, B⟩ = .ok ⟨.cmp (Fin.ofNat 8 A.toNat) (Fin.ofNat 8 B.toNat), 2, false⟩ ∧
    decode ⟨0x82, A, B⟩ = .ok ⟨.ldi (Fin.ofNat 8 A.toNat) B, 2, false⟩ ∧
    decode ⟨0x47, A, B⟩ = .ok ⟨.prn (Fin.ofNat 8 A.toNat), 1, false⟩ ∧
    decode ⟨0x45, A, B⟩ = .ok ⟨.push (Fin.ofNat 8 A.toNat), 1, false⟩ ∧
    decode ⟨0x46, A, B⟩ = .ok ⟨.pop (Fin.ofNat 8 A.toNat), 1, false⟩ ∧
    decode ⟨0x50, A, B⟩ = .ok ⟨.call (Fin.ofNat 8 A.toNat), 1, true⟩ ∧
    decode ⟨0x11, A, B⟩ = .ok ⟨.ret, 0, true⟩ ∧
    decode ⟨0x54, A, B⟩ = .ok ⟨.jmp (Fin.ofNat 8 A.toNat), 1, true⟩ ∧
    decode ⟨0x55, A, B⟩ = .ok ⟨.jeq (Fin.ofNat 8 A.toNat), 1, true⟩ ∧
    decode ⟨0x56, A, B⟩ = .ok ⟨.jne (Fin.ofNat 8 A.toNat), 1, true⟩ ∧
    decode ⟨0x01, A, B⟩ = .ok ⟨.hlt, 0, false⟩

/-- 30_encoding.md R88: every other byte is an unknown opcode, whatever its operand bytes (decisions D2
and D3). -/
def Obligations.EveryOtherOpcodeByteIsRejected : Prop :=
  ∀ f : Fetched, decode f = .error (.illegalOpcode f.op) ↔ f.op ∉ legalOpcodes

/-- 30_encoding.md R83, R85: ignored operand bits and bytes beyond the instruction's end make no
difference.  Operand A counts by its low three bits if the operand count is at least 1; operand B counts,
wholly for LDI and by its low three bits otherwise, if the operand count is 2. -/
def Obligations.IgnoredOperandBitsMakeNoDifference : Prop :=
  ∀ op a b a' b' : Byte,
    (1 ≤ op.toNat / 64 → a.toNat % 8 = a'.toNat % 8) →
    (op.toNat / 64 = 2 → b.toNat % 8 = b'.toNat % 8) →
    (op = opcodeMap.ldi → b = b') →
    decode ⟨op, a, b⟩ = decode ⟨op, a', b'⟩

/-- 30_encoding.md R91, 40_cycle.md R102: the descriptor of a legal opcode carries the tag of the map, the
operand count `opcode[7:6]` and the sets-PC flag `opcode[4]`. -/
def Obligations.DescriptorCarriesTagCountAndSetsPcFlag : Prop :=
  ∀ (f : Fetched) (d : Descriptor), decode f = .ok d →
    opcodeMap.byteOf d.instr.mnemonic = f.op ∧ d.operandCount = f.op.toNat / 64 ∧
      d.setsPc = decide (f.op.toNat / 16 % 2 = 1)

/-- 30_encoding.md R86, R87: under EVERY opcode map that keeps the properties of R87, decoding the bytes
of any instruction, followed by anything, gives the instruction back, with its operand count and its
sets-PC column. -/
def Obligations.DecodeInvertsEncodeUnderEveryWellFormedMap : Prop :=
  ∀ (m : OpcodeMap), m.wf = true → ∀ (i : Instr) (rest : List Byte),
    decodeWith m (Fetched.ofBytes (encodeWith m i ++ rest)) = .ok (describe i)

/-- The other direction: the bytes of a decoded instruction are the fetched ones, but for the ignored bits
of register operands and the bytes beyond the instruction's end (30_encoding.md R83, R84, R85, R92). -/
def Obligations.EncodeGivesBackTheFetchedBytes : Prop :=
  ∀ (f : Fetched) (d : Descriptor), decode f = .ok d →
    (encode d.instr).length = d.operandCount + 1 ∧
    (encode d.instr)[0]? = some f.op ∧
    (1 ≤ d.operandCount → (encode d.instr)[1]? = some (f.a &&& 7)) ∧
    (2 ≤ d.operandCount →
      (encode d.instr)[2]? = some (if d.instr.mnemonic = .ldi then f.b else f.b &&& 7))

/-- 30_encoding.md R87 and R81 (bits 7:6, 5 and 4): the structural constraints on the hardware's own map.
Bit 5, the ALU group, is descriptive (decision D20). -/
def Obligations.OpcodeMapKeepsTheStructuralConstraints : Prop :=
  (∀ t : Mnemonic, opCount (opcodeMap.byteOf t) = t.operandCount ∧
      opSetsPc (opcodeMap.byteOf t) = t.setsPc ∧
      opAluBit (opcodeMap.byteOf t) = decide (t = .add ∨ t = .mul ∨ t = .cmp)) ∧
    ∀ t u : Mnemonic, opcodeMap.byteOf t = opcodeMap.byteOf u → t = u

/-- A few instruction words written out from 30_encoding.md R86 and R92 and the vectors of
95_test_vectors.md, numbered as the opcode table numbers them (decision D2). -/
def Obligations.SampleTableWordsDecode : Prop :=
  decodeTableWord 24 0x0CFBA0 = some (.add 3 4) ∧ decodeTableWord 24 0xC80582 = some (.ldi 5 200) ∧
    decodeTableWord 16 0x0947 = some (.prn 1) ∧ decodeTableWord 8 0x11 = some .ret ∧
    decodeTableWord 16 0x0755 = some (.jeq 7) ∧ decodeTableWord 24 0x050042 = none

/-- 30_encoding.md R92: the text of every instruction in the normal form assembles to it (decision
D15). -/
def Obligations.EveryInstructionAssemblesFromItsText : Prop :=
  ∀ i : Instr, assembleLine (asmText i) = some i

/-! ## Registers and memory -/

/-- 10_state.md R21: every register holds what was last written to it, none is hardwired, and a register
write changes nothing else. -/
def Obligations.RegisterHoldsWhatWasLastWritten : Prop :=
  ∀ (s : State) (r : Reg) (v : Byte),
    (∀ q, (s.setReg r v).reg q = if q = r then v else s.reg q) ∧
    (s.setReg r v).pc = s.pc ∧ (s.setReg r v).fl = s.fl ∧ (s.setReg r v).mem = s.mem ∧
    (s.setReg r v).run = s.run ∧ (s.setReg r v).out = s.out

/-- 20_memory.md R51, R52: a write changes the one cell it names and nothing else; a read returns the
cell's value. -/
def Obligations.MemoryWriteChangesOneCell : Prop :=
  ∀ (s : State) (a v : Byte),
    (∀ x, (s.memWrite a v).memRead x = if x = a then v else s.memRead x) ∧
    (∀ r, (s.memWrite a v).reg r = s.reg r) ∧ (s.memWrite a v).pc = s.pc ∧
    (s.memWrite a v).fl = s.fl ∧ (s.memWrite a v).run = s.run ∧ (s.memWrite a v).out = s.out

/-- 20_memory.md R60: after any sequence of writes, a read returns the value of the most recent write to
that cell, or what the cell held before if there is none. -/
def Obligations.ReadReturnsTheMostRecentWrite : Prop :=
  ∀ (ws : List (Byte × Byte)) (s : State) (a : Byte),
    (ws.foldl (fun t w => t.memWrite w.1 w.2) s).memRead a =
      ((ws.reverse.find? (fun w => w.1 == a)).map Prod.snd).getD (s.memRead a)

/-- The model's own representation (log entry 11): two memories in canonical form with the same 256 cells
are the same list, so equal memories are equal data. -/
def Obligations.CanonicalMemoriesWithEqualCellsAreEqual : Prop :=
  ∀ m n : Memory, m.wf → n.wf → (∀ a < 256, m.read a = n.read a) → m = n

/-! ## Reset, image load, invariant -/

/-- 10_state.md R36: every piece of state at reset (run, fault and out by decisions D4 and D7). -/
def Obligations.ResetLeavesTheStatedValues : Prop :=
  State.reset.pc = 0 ∧ State.reset.fl = 0 ∧ State.reset.sp = 244 ∧
    (∀ r : Reg, r ≠ 7 → State.reset.reg r = 0) ∧ (∀ a, State.reset.memRead a = 0) ∧
    State.reset.run = .running ∧ State.reset.fault = none ∧ State.reset.out = []

/-- 70_reset_and_hazards.md R240, R241, 10_state.md R36: an image of at most 256 bytes stands at addresses
0, 1, 2, … and 0 beyond its end, all else as reset left it; a longer one starts no run (decisions D9
and D19). -/
def Obligations.BootPlacesTheImageOrRefusesIt : Prop :=
  ∀ image : List Byte,
    (image.length ≤ 256 → ∃ s, boot image = .next s ∧
      (∀ a : Byte, s.memRead a = image.getD a.toNat 0) ∧ (∀ r, s.reg r = State.reset.reg r) ∧
      s.pc = 0 ∧ s.fl = 0 ∧ s.run = .running ∧ s.out = []) ∧
    (256 < image.length → boot image = .refused (.imageTooLong image.length))

/-- The invariant (memory canonical, `fl` one of the four values of 10_state.md R27) holds at reset. -/
def Obligations.ResetMeetsTheInvariant : Prop := State.reset.Inv

/-- 10_state.md R27: from every state that meets the invariant, a step that answers a next state gives one
that meets it. -/
def Obligations.EveryStepKeepsTheInvariant : Prop :=
  ∀ s t : State, s.Inv → step s = .next t → t.Inv

/-- 10_state.md R27 ("In every reachable state `fl` is one of 0x00, 0x01, 0x02, 0x04"): every state of
every run, whatever image was loaded, meets the invariant. -/
def Obligations.EveryReachableStateMeetsTheInvariant : Prop :=
  ∀ s : State, Reachable s → s.Inv

/-! ## The step -/

/-- 40_cycle.md R101, R103: the fetch reads the byte at pc and the two after it, addresses modulo 256
(decision D1). -/
def Obligations.FetchReadsThreeBytesFromPc : Prop :=
  ∀ s : State, s.fetch.op = s.memRead s.pc ∧
    s.fetch.a = s.memRead (BitVec.ofNat 8 ((s.pc.toNat + 1) % 256)) ∧
    s.fetch.b = s.memRead (BitVec.ofNat 8 ((s.pc.toNat + 2) % 256))

/-- 40_cycle.md R105 to R107, R109: when the fetched bytes decode, the execute part of that instruction
answers a next state at that state, and the step is that state, with pc advanced by `n + 1` modulo 256 if
opcode bit 4 is 0 and as the execute part left it if it is 1 (the wrap is decision D1). -/
def Obligations.StepRunsTheDecodedInstruction : Prop :=
  ∀ (s : State) (d : Descriptor), s.run = .running → decode s.fetch = .ok d →
    ∃ t, exec d.instr s = .next t ∧
      step s = .next (if d.setsPc then t
        else t.setPc (BitVec.ofNat 8 ((t.pc.toNat + d.operandCount + 1) % 256)))

/-- 60_exceptions.md R220, R221, 40_cycle.md R104: a byte that is none of the thirteen opcodes takes the
exception, and run and the fault record are all that changes (decisions D2, D3, D5). -/
def Obligations.UnknownOpcodeTakesTheExceptionAndChangesNothingElse : Prop :=
  ∀ s : State, s.run = .running → s.memRead s.pc ∉ legalOpcodes →
    ∃ t, step s = .next t ∧ t.run = .faulted ⟨s.memRead s.pc, s.pc⟩ ∧
      t.fault = some ⟨s.memRead s.pc, s.pc⟩ ∧ t.faultCause = some 1 ∧ t.pc = s.pc ∧ t.fl = s.fl ∧
      (∀ r, t.reg r = s.reg r) ∧ SameMemory s t ∧ t.out = s.out

/-- 10_state.md R33: whenever a step leads to FAULTED, the fault record holds the byte at the pc the step
fetched from, and that pc.  That pc is unchanged is 60_exceptions.md R221 by the spec's decision D5
(log entry 4). -/
def Obligations.FaultRecordHoldsTheOpcodeAndItsPc : Prop :=
  ∀ (s t : State) (r : FaultRecord), step s = .next t → t.fault = some r →
    r.opcode = s.memRead s.pc ∧ r.pc = s.pc ∧ t.pc = r.pc

/-- 40_cycle.md R100, 60_exceptions.md R233: a step exists exactly when run is RUNNING; in HALTED and
FAULTED the model stops by name (decision D4, log entry 5). -/
def Obligations.AStepExistsExactlyWhenRunning : Prop :=
  ∀ s : State, (s.run = .running ↔ ∃ t, step s = .next t) ∧
    (s.run = .halted → step s = .fault .noStepHalted) ∧
    (∀ r, s.run = .faulted r → step s = .fault (.noStepFaulted r))

/-- 10_state.md R32: HALTED is entered by HLT alone and FAULTED by an unknown opcode alone (decision
D4). -/
def Obligations.RunStateIsLeftOnlyByHltOrUnknownOpcode : Prop :=
  ∀ s t : State, step s = .next t →
    (t.run = .halted ↔ ∃ d, decode s.fetch = .ok d ∧ d.instr = .hlt) ∧
    ((∃ r, t.run = .faulted r) ↔ ∃ e, decode s.fetch = .error e) ∧
    (t.run = .running ↔ ∃ d, decode s.fetch = .ok d ∧ d.instr ≠ .hlt)

/-- 40_cycle.md R110: the pc after one step, for each instruction (wraps by D1, HLT by D8, CALL R7 by
D16). -/
def Obligations.NextPcIsThatOfTheTable : Prop :=
  ∀ (s : State) (d : Descriptor), s.run = .running → decode s.fetch = .ok d →
    ∃ t, step s = .next t ∧ t.pc = match d.instr with
      | .ldi _ _ => s.pc + 3
      | .add _ _ => s.pc + 3
      | .mul _ _ => s.pc + 3
      | .cmp _ _ => s.pc + 3
      | .prn _ => s.pc + 2
      | .push _ => s.pc + 2
      | .pop _ => s.pc + 2
      | .hlt => s.pc + 1
      | .call r => if r = 7 then s.sp - 1 else s.reg r
      | .ret => s.memRead s.sp
      | .jmp r => s.reg r
      | .jeq r => if s.fl.toNat % 2 = 1 then s.reg r else s.pc + 2
      | .jne r => if s.fl.toNat % 2 = 0 then s.reg r else s.pc + 2

/-! ## Each instruction's execute part: result, completion and frame -/

/-- ADD, 41_alu.md R121.  `opcodeMap.add` is the map's byte, whatever its value. -/
def Obligations.AddWritesTheSumModulo256 : Prop :=
  (∀ A B : Byte, decode ⟨opcodeMap.add, A, B⟩ =
    .ok ⟨.add (Fin.ofNat 8 A.toNat) (Fin.ofNat 8 B.toNat), 2, false⟩) ∧
  ∀ (a b : Reg) (s : State), ∃ t, exec (.add a b) s = .next t ∧
    (t.reg a).toNat = ((s.reg a).toNat + (s.reg b).toNat) % 256 ∧
    SameRegsExcept s t [a] ∧ t.fl = s.fl ∧ t.pc = s.pc ∧ SameMemory s t ∧ t.run = s.run ∧
    t.out = s.out

/-- MUL, 41_alu.md R122. -/
def Obligations.MulWritesTheLowByteOfTheProduct : Prop :=
  (∀ A B : Byte, decode ⟨opcodeMap.mul, A, B⟩ =
    .ok ⟨.mul (Fin.ofNat 8 A.toNat) (Fin.ofNat 8 B.toNat), 2, false⟩) ∧
  ∀ (a b : Reg) (s : State), ∃ t, exec (.mul a b) s = .next t ∧
    (t.reg a).toNat = ((s.reg a).toNat * (s.reg b).toNat) % 256 ∧
    SameRegsExcept s t [a] ∧ t.fl = s.fl ∧ t.pc = s.pc ∧ SameMemory s t ∧ t.run = s.run ∧
    t.out = s.out

/-- CMP, 41_alu.md R123: the whole flags register is assigned, by unsigned comparison; no register is
written.  That it is assigned and not toggled is the spec's choice in 90_conflicts.md C1 (log entry
10). -/
def Obligations.CmpAssignsExactlyOneFlag : Prop :=
  (∀ A B : Byte, decode ⟨opcodeMap.cmp, A, B⟩ =
    .ok ⟨.cmp (Fin.ofNat 8 A.toNat) (Fin.ofNat 8 B.toNat), 2, false⟩) ∧
  ∀ (a b : Reg) (s : State), ∃ t, exec (.cmp a b) s = .next t ∧
    t.fl = (if (s.reg a).toNat = (s.reg b).toNat then 0x01
      else if (s.reg b).toNat < (s.reg a).toNat then 0x02 else 0x04) ∧
    SameRegsExcept s t [] ∧ t.pc = s.pc ∧ SameMemory s t ∧ t.run = s.run ∧ t.out = s.out

/-- LDI, 42_data.md R140: the whole immediate byte is loaded into any register, and after the step pc is
the instruction's address plus 3 modulo 256 (the wrap is the spec's decision D1, log entry 2). -/
def Obligations.LdiLoadsTheImmediate : Prop :=
  (∀ A B : Byte, decode ⟨opcodeMap.ldi, A, B⟩ = .ok ⟨.ldi (Fin.ofNat 8 A.toNat) B, 2, false⟩) ∧
  (∀ (r : Reg) (v : Byte) (s : State), ∃ t, exec (.ldi r v) s = .next t ∧ t.reg r = v ∧
    SameRegsExcept s t [r] ∧ t.fl = s.fl ∧ t.pc = s.pc ∧ SameMemory s t ∧ t.run = s.run ∧
    t.out = s.out) ∧
  ∀ s : State, s.run = .running → s.memRead s.pc = opcodeMap.ldi →
    ∃ t, step s = .next t ∧ t.pc.toNat = (s.pc.toNat + 3) % 256

/-- PRN, 42_data.md R141: one output event with the register's value, after all earlier ones (the port as a
list of values is decision D7), and after the step pc is the instruction's address plus 2 modulo 256
(decision D1). -/
def Obligations.PrnAppendsTheRegisterToTheOutput : Prop :=
  (∀ A B : Byte, decode ⟨opcodeMap.prn, A, B⟩ = .ok ⟨.prn (Fin.ofNat 8 A.toNat), 1, false⟩) ∧
  (∀ (r : Reg) (s : State), ∃ t, exec (.prn r) s = .next t ∧ t.out = s.out ++ [s.reg r] ∧
    SameRegsExcept s t [] ∧ t.fl = s.fl ∧ t.pc = s.pc ∧ SameMemory s t ∧ t.run = s.run) ∧
  ∀ s : State, s.run = .running → s.memRead s.pc = opcodeMap.prn →
    ∃ t, step s = .next t ∧ t.pc.toNat = (s.pc.toNat + 2) % 256

/-- PUSH, 43_stack.md R161, for every register; PUSH R7 stores the decremented SP (decision D16, log
entry 8).  `s.pushAddr` is the address the meaning stores to. -/
def Obligations.PushStoresBelowTheStackPointer : Prop :=
  ∀ (r : Reg) (s : State), ∃ t, exec (.push r) s = .next t ∧
    s.pushAddr.toNat = (s.sp.toNat + 255) % 256 ∧ t.sp = s.pushAddr ∧
    t.memRead s.pushAddr = (if r = 7 then s.pushAddr else s.reg r) ∧
    SameMemoryExcept s t s.pushAddr ∧ SameRegsExcept s t [7] ∧ t.fl = s.fl ∧ t.pc = s.pc ∧
    t.run = s.run ∧ t.out = s.out

/-- POP, 43_stack.md R162, for every register; POP R7 leaves the popped byte plus 1 (decision D16, log
entry 8). -/
def Obligations.PopLoadsTheTopOfTheStack : Prop :=
  ∀ (r : Reg) (s : State), ∃ t, exec (.pop r) s = .next t ∧
    (r ≠ 7 → t.reg r = s.memRead s.sp ∧ t.sp.toNat = (s.sp.toNat + 1) % 256) ∧
    (r = 7 → t.sp.toNat = ((s.memRead s.sp).toNat + 1) % 256) ∧
    SameMemory s t ∧ SameRegsExcept s t [r, 7] ∧ t.fl = s.fl ∧ t.pc = s.pc ∧ t.run = s.run ∧
    t.out = s.out

/-- CALL, 44_control.md R181, for every register; CALL R7 jumps to the decremented SP (decision D16, log
entry 8).  `s.pushAddr` is the address the meaning stores to. -/
def Obligations.CallPushesTheReturnAddressAndJumps : Prop :=
  ∀ (r : Reg) (s : State), ∃ t, exec (.call r) s = .next t ∧
    s.pushAddr.toNat = (s.sp.toNat + 255) % 256 ∧ t.sp = s.pushAddr ∧
    (t.memRead s.pushAddr).toNat = (s.pc.toNat + 2) % 256 ∧
    SameMemoryExcept s t s.pushAddr ∧ t.pc = (if r = 7 then s.pushAddr else s.reg r) ∧
    SameRegsExcept s t [7] ∧ t.fl = s.fl ∧ t.run = s.run ∧ t.out = s.out

/-- RET, 44_control.md R182; that SP + 1 wraps modulo 256 is the spec's decision D1 (log entry 2). -/
def Obligations.RetPopsThePc : Prop :=
  (∀ A B : Byte, decode ⟨opcodeMap.ret, A, B⟩ = .ok ⟨.ret, 0, true⟩) ∧
  ∀ s : State, ∃ t, exec .ret s = .next t ∧ t.pc = s.memRead s.sp ∧
    t.sp.toNat = (s.sp.toNat + 1) % 256 ∧ SameMemory s t ∧ SameRegsExcept s t [7] ∧
    t.fl = s.fl ∧ t.run = s.run ∧ t.out = s.out

/-- JMP, 44_control.md R183. -/
def Obligations.JmpLoadsThePc : Prop :=
  (∀ A B : Byte, decode ⟨opcodeMap.jmp, A, B⟩ = .ok ⟨.jmp (Fin.ofNat 8 A.toNat), 1, true⟩) ∧
  ∀ (r : Reg) (s : State), ∃ t, exec (.jmp r) s = .next t ∧ t.pc = s.reg r ∧ SameMemory s t ∧
    SameRegsExcept s t [] ∧ t.fl = s.fl ∧ t.run = s.run ∧ t.out = s.out

/-- JEQ, 44_control.md R184; that pc + 2 wraps modulo 256 when it does not branch is the spec's decision D1
(log entry 2). -/
def Obligations.JeqBranchesOnEqualAndClearsTheFlags : Prop :=
  (∀ A B : Byte, decode ⟨opcodeMap.jeq, A, B⟩ = .ok ⟨.jeq (Fin.ofNat 8 A.toNat), 1, true⟩) ∧
  ∀ (r : Reg) (s : State), ∃ t, exec (.jeq r) s = .next t ∧
    (s.fl.toNat % 2 = 1 → t.pc = s.reg r) ∧
    (s.fl.toNat % 2 = 0 → t.pc.toNat = (s.pc.toNat + 2) % 256) ∧
    t.fl = 0 ∧ SameMemory s t ∧ SameRegsExcept s t [] ∧ t.run = s.run ∧ t.out = s.out

/-- JNE, 44_control.md R185; that pc + 2 wraps modulo 256 when it does not branch is the spec's decision D1
(log entry 2). -/
def Obligations.JneBranchesOnNotEqualAndClearsTheFlags : Prop :=
  (∀ A B : Byte, decode ⟨opcodeMap.jne, A, B⟩ = .ok ⟨.jne (Fin.ofNat 8 A.toNat), 1, true⟩) ∧
  ∀ (r : Reg) (s : State), ∃ t, exec (.jne r) s = .next t ∧
    (s.fl.toNat % 2 = 0 → t.pc = s.reg r) ∧
    (s.fl.toNat % 2 = 1 → t.pc.toNat = (s.pc.toNat + 2) % 256) ∧
    t.fl = 0 ∧ SameMemory s t ∧ SameRegsExcept s t [] ∧ t.run = s.run ∧ t.out = s.out

/-- HLT, 44_control.md R186: the execute part leaves pc to the advance of the step, which moves it past
the byte (decision D8, log entry 7). -/
def Obligations.HltHaltsAndChangesNothingElse : Prop :=
  (∀ s : State, ∃ t, exec .hlt s = .next t ∧ t.run = .halted ∧ t.pc = s.pc ∧ SameMemory s t ∧
    SameRegsExcept s t [] ∧ t.fl = s.fl ∧ t.out = s.out) ∧
  ∀ s : State, s.run = .running → s.memRead s.pc = opcodeMap.hlt →
    ∃ t, step s = .next t ∧ t.run = .halted ∧ t.pc.toNat = (s.pc.toNat + 1) % 256

/-! ## Whole-machine rules -/

/-- 10_state.md R28, all five points: CMP writes all of `fl` with exactly one flag set; JEQ and JNE write
0; reset writes 0; no other instruction writes `fl` or depends on it; and no instruction depends on G, L
or bits 7:3 (JEQ and JNE only on E).  CMP's clause rests on 90_conflicts.md C1, assign and not toggle (log
entry 10); that G and L are read by no instruction is marked by the spec as derived from the rules of
44_control.md. -/
def Obligations.FlagsAreWrittenByCmpAndSpentByConditionalJumps : Prop :=
  (∀ a b s, ∃ t, exec (.cmp a b) s = .next t ∧ (t.fl = 0x01 ∨ t.fl = 0x02 ∨ t.fl = 0x04)) ∧
  (∀ r s, ∃ t, exec (.jeq r) s = .next t ∧ t.fl = 0) ∧
  (∀ r s, ∃ t, exec (.jne r) s = .next t ∧ t.fl = 0) ∧
  State.reset.fl = 0 ∧
  (∀ i s v, i.mnemonic ≠ .cmp → i.mnemonic ≠ .jeq → i.mnemonic ≠ .jne →
    ∃ t, exec i s = .next t ∧ t.fl = s.fl ∧ exec i (s.setFl v) = .next (t.setFl v)) ∧
  (∀ i s v, (i.mnemonic = .cmp ∨ v.toNat % 2 = s.fl.toNat % 2) →
    ∃ t, exec i s = .next t ∧ ∃ u, exec i (s.setFl v) = .next u ∧ u.setFl 0 = t.setFl 0)

/-- The same as a rule about steps: `fl` changes in a step only by CMP, JEQ or JNE (10_state.md R28). -/
def Obligations.AStepChangesFlagsOnlyByCmpJeqJne : Prop :=
  ∀ s t : State, step s = .next t → t.fl ≠ s.fl →
    ∃ d, decode s.fetch = .ok d ∧
      (d.instr.mnemonic = .cmp ∨ d.instr.mnemonic = .jeq ∨ d.instr.mnemonic = .jne)

/-- 10_state.md R34: `out` starts empty, a PRN step appends exactly the named register's value, and no
other step changes it (the port as a list of values is decision D7). -/
def Obligations.OnlyPrnAppendsToTheOutput : Prop :=
  State.reset.out = [] ∧
  ∀ s t : State, step s = .next t →
    (∀ d r, decode s.fetch = .ok d → d.instr = .prn r → t.out = s.out ++ [s.reg r]) ∧
    ((∀ d, decode s.fetch = .ok d → d.instr.mnemonic ≠ .prn) → t.out = s.out)

/-- 10_state.md R24, the column "writes": a register that a step changes is one the table lists for the
decoded instruction. -/
def Obligations.AStepWritesOnlyTheRegistersOfTheTable : Prop :=
  ∀ (s t : State) (r : Reg), step s = .next t → t.reg r ≠ s.reg r →
    ∃ d, decode s.fetch = .ok d ∧ r ∈ regWrites d.instr

/-- 10_state.md R24, the column "reads": changing a register the table does not list as read makes no
difference to what an instruction does to anything else. -/
def Obligations.AnInstructionReadsOnlyTheRegistersOfTheTable : Prop :=
  ∀ (i : Instr) (s : State) (r : Reg) (v : Byte), r ∉ regReads i →
    ∃ t, exec i s = .next t ∧
      exec i (s.setReg r v) = .next (if r ∈ regWrites i then t else t.setReg r v)

/-- 20_memory.md R54, the column "writes": a cell that a step changes is the one PUSH or CALL stores to,
SP after the decrement (modulo 256, decision D1). -/
def Obligations.AStepWritesMemoryOnlyByPushAndCall : Prop :=
  ∀ (s t : State) (a : Byte), step s = .next t → t.memRead a ≠ s.memRead a →
    a = s.sp - 1 ∧ ∃ d, decode s.fetch = .ok d ∧
      (d.instr.mnemonic = .push ∨ d.instr.mnemonic = .call)

/-- 20_memory.md R54, the column "reads": the execute part reads no cell but SP's, and only in POP and
RET: changing any other cell makes no difference to what the instruction does to anything else. -/
def Obligations.AnInstructionReadsMemoryOnlyAtTheStackPointer : Prop :=
  ∀ (i : Instr) (s : State) (a v : Byte),
    ((i.mnemonic = .pop ∨ i.mnemonic = .ret) → a ≠ s.sp) →
    ∃ t, exec i s = .next t ∧ ∃ u, exec i (s.memWrite a v) = .next u ∧
      (∀ r, u.reg r = t.reg r) ∧ u.pc = t.pc ∧ u.fl = t.fl ∧ u.run = t.run ∧ u.out = t.out ∧
      (∀ x, x ≠ a → u.memRead x = t.memRead x) ∧
      u.memRead a = if a ∈ memWrites i s then t.memRead a else v

/-- 20_memory.md R63: a byte that PUSH stores is seen by the very next fetch, and storing over its own
bytes does not change what the PUSH does (PUSH R7 by decision D16, wraps by D1). -/
def Obligations.APushedByteIsSeenByTheNextFetch : Prop :=
  ∀ (s : State) (r : Reg) (d : Descriptor), s.run = .running → decode s.fetch = .ok d →
    d.instr = .push r → ∃ t, step s = .next t ∧ t.pc = s.pc + 2 ∧
      t.memRead (s.sp - 1) = (if r = 7 then s.sp - 1 else s.reg r) ∧
      (s.sp - 1 = s.pc + 2 → t.fetch.op = if r = 7 then s.sp - 1 else s.reg r)

/-! ## Sequences of instructions -/

/-- 43_stack.md R162 (the stack round trip of the source; R7 by decision D16 and 90_conflicts.md C10, wraps
by D1): PUSH then POP copies the pushed value; SP is restored unless R7 itself is popped; and the only
other trace is the byte left in memory. -/
def Obligations.PushThenPopCopiesTheRegister : Prop :=
  ∀ (r1 r2 : Reg) (s : State),
    ∃ t, execAll [.push r1, .pop r2] s = .next t ∧
      (r2 ≠ 7 → t.reg r2 = (if r1 = 7 then s.sp - 1 else s.reg r1) ∧ t.sp = s.sp) ∧
      (r2 = 7 → t.sp = (if r1 = 7 then s.sp - 1 else s.reg r1) + 1) ∧
      SameRegsExcept s t [r2] ∧ SameMemoryExcept s t s.pushAddr ∧ t.fl = s.fl ∧ t.pc = s.pc ∧
      t.run = s.run ∧ t.out = s.out

/-- 43_stack.md R160: the stack is last in, first out, however SP wraps (the spec's decision D1, log entry
2): pushing up to 256 registers and popping them in reverse order gives every register and SP back.  R7
is left out, because popping R7 overwrites SP itself: PushThenPopCopiesTheRegister,
PushStoresBelowTheStackPointer and PopLoadsTheTopOfTheStack say what PUSH R7 and POP R7 do. -/
def Obligations.BalancedPushesAndPopsRestoreTheRegisters : Prop :=
  ∀ (rs : List Reg) (s : State), rs.length ≤ 256 → (∀ r ∈ rs, r ≠ 7) →
    ∃ t, execAll (rs.map Instr.push ++ rs.reverse.map Instr.pop) s = .next t ∧
      SameRegsExcept s t [] ∧ t.fl = s.fl ∧ t.pc = s.pc ∧ t.run = s.run ∧ t.out = s.out

/-- 44_control.md R181, R182 (the call and return round trip of the source), over two steps and for every
register: if a CALL lands where a RET stands, the RET leaves pc at the address after the CALL (modulo
256, decision D1) and every register, SP with them, as before. -/
def Obligations.CallThenRetReturns : Prop :=
  ∀ (s t : State) (r : Reg) (d : Descriptor), s.run = .running → decode s.fetch = .ok d →
    d.instr = .call r → step s = .next t → t.memRead t.pc = opcodeMap.ret →
    ∃ u, step t = .next u ∧ u.pc = s.pc + 2 ∧ SameRegsExcept s u [] ∧ u.fl = s.fl ∧
      u.run = .running ∧ u.out = s.out ∧ SameMemoryExcept s u (s.sp - 1)

/-- 70_reset_and_hazards.md R244, 90_conflicts.md C9: after a JEQ or a JNE the flags are spent: a JEQ with
no CMP between falls through (to pc + 2 modulo 256, decision D1), and a JNE is taken. -/
def Obligations.AfterAConditionalJumpJeqFallsThroughAndJneBranches : Prop :=
  ∀ (c : Instr) (q r : Reg) (s : State), (c = .jeq q ∨ c = .jne q) →
    ∃ t, exec c s = .next t ∧
      (∃ u, exec (.jeq r) t = .next u ∧ u.pc = t.pc + 2) ∧
      (∃ u, exec (.jne r) t = .next u ∧ u.pc = t.reg r)

/-! ## Runs -/

/-- 40_cycle.md R111, R112: what a run under fuel reports as the end is a final state that the steps reach;
every final state that the steps reach is reported with enough fuel; and more fuel does not change a
reported end. -/
def Obligations.FuelRunReportsExactlyTheEndsOfRuns : Prop :=
  (∀ s t, (∃ n, runFuel n s = .ended t) ↔ (Reaches s t ∧ t.Final)) ∧
  ∀ n k s t, runFuel n s = .ended t → runFuel (n + k) s = .ended t

/-- 40_cycle.md R112: a JMP to its own address runs forever, and no amount of fuel reports an end. -/
def Obligations.JumpToItselfNeverEnds : Prop :=
  ∀ (s : State) (r : Reg) (d : Descriptor), s.run = .running → decode s.fetch = .ok d →
    d.instr = .jmp r → s.reg r = s.pc →
    step s = .next s ∧ SafeFrom s ∧ ∀ n, runFuel n s = .noAnswer

/-- 70_reset_and_hazards.md R247: the host's reading of a final state. -/
def Obligations.HostReadsHaltedAsExit0AndFaultedAsExit1 : Prop :=
  ∀ s : State,
    (s.run = .halted → hostResult s = some ⟨0, none, s.out⟩) ∧
    (∀ r, s.run = .faulted r → hostResult s = some ⟨1, some r, s.out⟩) ∧
    (s.run = .running → hostResult s = none)

/-- The model's own loader of one word (log entry 13): an opcode-table word that decodes is what the very
next step runs. -/
def Obligations.AStoredTableWordIsWhatTheNextStepRuns : Prop :=
  ∀ (s : State) (nbits w : Nat) (i : Instr), decodeTableWord nbits w = some i →
    ∃ t, exec i (s.withFetchWord nbits w) = .next t ∧
      step (s.withFetchWord nbits w) = .next (t.advancePc (describe i)) ∧
      (s.withFetchWord nbits w).pc = s.pc ∧ (∀ r, (s.withFetchWord nbits w).reg r = s.reg r) ∧
      (s.withFetchWord nbits w).fl = s.fl ∧ (s.withFetchWord nbits w).out = s.out
end

