-- ==== Sys2Proof/Laws/Decode.lean ====
section
/-! SUPPORT. Laws/Decode.lean: the laws of the decoder and the encoder. -/

namespace Sys2Proof

/-- The fields of the opcode byte as quotients (30_encoding.md R81). -/
theorem opCount_eq (op : Byte) : opCount op = op.toNat / 64 := by
  simp [opCount, Nat.shiftRight_eq_div_pow]

theorem opSetsPc_eq (op : Byte) : opSetsPc op = decide (op.toNat / 16 % 2 = 1) := by
  simp [opSetsPc, BitVec.getLsbD, Nat.testBit, Nat.shiftRight_eq_div_pow]
  rfl

theorem Mnemonic.mem_all (t : Mnemonic) : t ∈ Mnemonic.all := by cases t <;> decide

/-- The masking of a register operand byte, as a remainder (10_state.md R22). -/
theorem regOperand_val (b : Byte) : (regOperand b).val = b.toNat % 8 := by
  have h := Nat.and_two_pow_sub_one_eq_mod b.toNat 3
  simp only [regOperand, Fin.ofNat, BitVec.toNat_and]
  have h7 : (7#8).toNat = 2 ^ 3 - 1 := rfl
  rw [h7, h]
  omega

theorem regOperand_eq_ofNat (b : Byte) : regOperand b = Fin.ofNat 8 b.toNat :=
  Fin.ext (regOperand_val b)

/-- An encoded register operand is read back as the same register. -/
@[simp] theorem regOperand_regByte (r : Reg) : regOperand (regByte r) = r := by
  apply Fin.ext
  rw [regOperand_val]
  have := r.isLt
  simp only [regByte, BitVec.toNat_ofNat]
  omega

/-- The tag found for a byte has that byte. -/
theorem OpcodeMap.byteOf_of_tagOf {m : OpcodeMap} {op : Byte} {t : Mnemonic}
    (h : m.tagOf op = some t) : m.byteOf t = op := by
  simpa using List.find?_some h

/-- No tag is found exactly when no tag has the byte. -/
theorem OpcodeMap.tagOf_eq_none {m : OpcodeMap} {op : Byte} :
    m.tagOf op = none ↔ ∀ t, m.byteOf t ≠ op := by
  simp only [OpcodeMap.tagOf, List.find?_eq_none, beq_iff_eq]
  exact ⟨fun h t => h t (Mnemonic.mem_all t), fun h t _ => h t⟩

/-- Under a map with distinct bytes a tag is found from its byte. -/
theorem OpcodeMap.tagOf_byteOf {m : OpcodeMap} (h : m.distinct = true) (t : Mnemonic) :
    m.tagOf (m.byteOf t) = some t := by
  cases ht : m.tagOf (m.byteOf t) with
  | none => exact absurd rfl (OpcodeMap.tagOf_eq_none.mp ht t)
  | some u =>
    have hb := OpcodeMap.byteOf_of_tagOf ht
    have hn : (Mnemonic.all.map m.byteOf).Nodup := of_decide_eq_true h
    exact congrArg some
      (List.inj_on_of_nodup_map hn (Mnemonic.mem_all u) (Mnemonic.mem_all t) hb)

/-- What a well-formed map says of each tag. -/
theorem OpcodeMap.wf_tag {m : OpcodeMap} (h : m.wf = true) (t : Mnemonic) :
    m.distinct = true ∧ opCount (m.byteOf t) = t.operandCount ∧
      opSetsPc (m.byteOf t) = t.setsPc := by
  simp only [OpcodeMap.wf, Bool.and_eq_true, List.all_eq_true] at h
  obtain ⟨hd, ha⟩ := h
  obtain ⟨hc, hs⟩ := ha t (Mnemonic.mem_all t)
  exact ⟨hd, beq_iff_eq.mp hc, beq_iff_eq.mp hs⟩

/-- What decode can answer: a descriptor whose instruction carries the tag of the byte, or the rejection
of a byte that no tag has. -/
theorem decodeWith_cases (m : OpcodeMap) (f : Fetched) :
    (∃ t, m.tagOf f.op = some t ∧ decodeWith m f = .ok
      { instr := assemble t f.a f.b, operandCount := opCount f.op, setsPc := opSetsPc f.op }) ∨
    (m.tagOf f.op = none ∧ decodeWith m f = .error (.illegalOpcode f.op)) := by
  unfold decodeWith
  cases m.tagOf f.op with
  | none => exact .inr ⟨rfl, rfl⟩
  | some t => exact .inl ⟨t, rfl, rfl⟩

@[simp] theorem assemble_mnemonic (t : Mnemonic) (a b : Byte) : (assemble t a b).mnemonic = t := by
  cases t <;> rfl

/-- A rejection names the fetched opcode. -/
theorem decode_error {f : Fetched} {e : DecodeError} (h : decode f = .error e) :
    e = .illegalOpcode f.op ∧ opcodeMap.tagOf f.op = none := by
  rcases decodeWith_cases opcodeMap f with ⟨t, _, h'⟩ | ⟨hn, h'⟩
  · rw [decode, h'] at h; cases h
  · rw [decode, h'] at h; cases h; exact ⟨rfl, hn⟩

/-- A descriptor that decode delivers is the one of the fetched byte. -/
theorem decode_ok {f : Fetched} {d : Descriptor} (h : decode f = .ok d) :
    ∃ t, opcodeMap.byteOf t = f.op ∧ d.instr = assemble t f.a f.b ∧ d.instr.mnemonic = t ∧
      d.operandCount = opCount f.op ∧ d.setsPc = opSetsPc f.op := by
  rcases decodeWith_cases opcodeMap f with ⟨t, ht, h'⟩ | ⟨_, h'⟩
  · rw [decode, h'] at h; cases h
    exact ⟨t, OpcodeMap.byteOf_of_tagOf ht, rfl, assemble_mnemonic t _ _, rfl, rfl⟩
  · rw [decode, h'] at h; cases h

theorem opcodeMap_wf : opcodeMap.wf = true := by decide

/-- On this hardware the count and the sets-PC flag of a descriptor are those of its instruction. -/
theorem decode_ok_shape {f : Fetched} {d : Descriptor} (h : decode f = .ok d) :
    d.operandCount = d.instr.mnemonic.operandCount ∧ d.setsPc = d.instr.mnemonic.setsPc := by
  obtain ⟨t, hb, -, hm, hc, hs⟩ := decode_ok h
  obtain ⟨-, h1, h2⟩ := OpcodeMap.wf_tag opcodeMap_wf t
  rw [hb] at h1 h2
  exact ⟨by rw [hc, h1, hm], by rw [hs, h2, hm]⟩

end Sys2Proof
end

