-- ==== Sys2Proof/Laws/State.lean ====
section
/-! SUPPORT. Laws/State.lean: one lemma for each field under each update of the state, and what the
register file, the memory reads and the flag bits give after each update. -/

namespace Sys2Proof.Machine

@[simp] theorem State.setReg_regs (s : State) (r : Reg) (v : Byte) : (s.setReg r v).regs = s.regs.set r v := rfl
@[simp] theorem State.setReg_pc (s : State) (r : Reg) (v : Byte) : (s.setReg r v).pc = s.pc := rfl
@[simp] theorem State.setReg_fl (s : State) (r : Reg) (v : Byte) : (s.setReg r v).fl = s.fl := rfl
@[simp] theorem State.setReg_mem (s : State) (r : Reg) (v : Byte) : (s.setReg r v).mem = s.mem := rfl
@[simp] theorem State.setReg_run (s : State) (r : Reg) (v : Byte) : (s.setReg r v).run = s.run := rfl
@[simp] theorem State.setReg_out (s : State) (r : Reg) (v : Byte) : (s.setReg r v).out = s.out := rfl

@[simp] theorem State.setPc_regs (s : State) (v : Byte) : (s.setPc v).regs = s.regs := rfl
@[simp] theorem State.setPc_pc (s : State) (v : Byte) : (s.setPc v).pc = v := rfl
@[simp] theorem State.setPc_fl (s : State) (v : Byte) : (s.setPc v).fl = s.fl := rfl
@[simp] theorem State.setPc_mem (s : State) (v : Byte) : (s.setPc v).mem = s.mem := rfl
@[simp] theorem State.setPc_run (s : State) (v : Byte) : (s.setPc v).run = s.run := rfl
@[simp] theorem State.setPc_out (s : State) (v : Byte) : (s.setPc v).out = s.out := rfl

@[simp] theorem State.setFl_regs (s : State) (v : Byte) : (s.setFl v).regs = s.regs := rfl
@[simp] theorem State.setFl_pc (s : State) (v : Byte) : (s.setFl v).pc = s.pc := rfl
@[simp] theorem State.setFl_fl (s : State) (v : Byte) : (s.setFl v).fl = v := rfl
@[simp] theorem State.setFl_mem (s : State) (v : Byte) : (s.setFl v).mem = s.mem := rfl
@[simp] theorem State.setFl_run (s : State) (v : Byte) : (s.setFl v).run = s.run := rfl
@[simp] theorem State.setFl_out (s : State) (v : Byte) : (s.setFl v).out = s.out := rfl

@[simp] theorem State.memWrite_regs (s : State) (a v : Byte) : (s.memWrite a v).regs = s.regs := rfl
@[simp] theorem State.memWrite_pc (s : State) (a v : Byte) : (s.memWrite a v).pc = s.pc := rfl
@[simp] theorem State.memWrite_fl (s : State) (a v : Byte) : (s.memWrite a v).fl = s.fl := rfl
@[simp] theorem State.memWrite_mem (s : State) (a v : Byte) : (s.memWrite a v).mem = s.mem.write a.toNat v := rfl
@[simp] theorem State.memWrite_run (s : State) (a v : Byte) : (s.memWrite a v).run = s.run := rfl
@[simp] theorem State.memWrite_out (s : State) (a v : Byte) : (s.memWrite a v).out = s.out := rfl

@[simp] theorem State.emit_regs (s : State) (v : Byte) : (s.emit v).regs = s.regs := rfl
@[simp] theorem State.emit_pc (s : State) (v : Byte) : (s.emit v).pc = s.pc := rfl
@[simp] theorem State.emit_fl (s : State) (v : Byte) : (s.emit v).fl = s.fl := rfl
@[simp] theorem State.emit_mem (s : State) (v : Byte) : (s.emit v).mem = s.mem := rfl
@[simp] theorem State.emit_run (s : State) (v : Byte) : (s.emit v).run = s.run := rfl
@[simp] theorem State.emit_out (s : State) (v : Byte) : (s.emit v).out = s.out ++ [v] := rfl

@[simp] theorem State.halt_regs (s : State) : s.halt.regs = s.regs := rfl
@[simp] theorem State.halt_pc (s : State) : s.halt.pc = s.pc := rfl
@[simp] theorem State.halt_fl (s : State) : s.halt.fl = s.fl := rfl
@[simp] theorem State.halt_mem (s : State) : s.halt.mem = s.mem := rfl
@[simp] theorem State.halt_run (s : State) : s.halt.run = .halted := rfl
@[simp] theorem State.halt_out (s : State) : s.halt.out = s.out := rfl

@[simp] theorem State.raiseIllegalOpcode_regs (s : State) (op : Byte) : (s.raiseIllegalOpcode op).regs = s.regs := rfl
@[simp] theorem State.raiseIllegalOpcode_pc (s : State) (op : Byte) : (s.raiseIllegalOpcode op).pc = s.pc := rfl
@[simp] theorem State.raiseIllegalOpcode_fl (s : State) (op : Byte) : (s.raiseIllegalOpcode op).fl = s.fl := rfl
@[simp] theorem State.raiseIllegalOpcode_mem (s : State) (op : Byte) : (s.raiseIllegalOpcode op).mem = s.mem := rfl
@[simp] theorem State.raiseIllegalOpcode_run (s : State) (op : Byte) : (s.raiseIllegalOpcode op).run = .faulted { opcode := op, pc := s.pc } := rfl
@[simp] theorem State.raiseIllegalOpcode_out (s : State) (op : Byte) : (s.raiseIllegalOpcode op).out = s.out := rfl

@[simp] theorem State.setSp_regs (s : State) (v : Byte) : (s.setSp v).regs = s.regs.set spReg v := rfl
@[simp] theorem State.setSp_pc (s : State) (v : Byte) : (s.setSp v).pc = s.pc := rfl
@[simp] theorem State.setSp_fl (s : State) (v : Byte) : (s.setSp v).fl = s.fl := rfl
@[simp] theorem State.setSp_mem (s : State) (v : Byte) : (s.setSp v).mem = s.mem := rfl
@[simp] theorem State.setSp_run (s : State) (v : Byte) : (s.setSp v).run = s.run := rfl
@[simp] theorem State.setSp_out (s : State) (v : Byte) : (s.setSp v).out = s.out := rfl

@[simp] theorem State.decSp_regs (s : State) : s.decSp.regs = s.regs.set spReg (s.sp - 1) := rfl
@[simp] theorem State.decSp_pc (s : State) : s.decSp.pc = s.pc := rfl
@[simp] theorem State.decSp_fl (s : State) : s.decSp.fl = s.fl := rfl
@[simp] theorem State.decSp_mem (s : State) : s.decSp.mem = s.mem := rfl
@[simp] theorem State.decSp_run (s : State) : s.decSp.run = s.run := rfl
@[simp] theorem State.decSp_out (s : State) : s.decSp.out = s.out := rfl

@[simp] theorem State.incSp_regs (s : State) : s.incSp.regs = s.regs.set spReg (s.sp + 1) := rfl
@[simp] theorem State.incSp_pc (s : State) : s.incSp.pc = s.pc := rfl
@[simp] theorem State.incSp_fl (s : State) : s.incSp.fl = s.fl := rfl
@[simp] theorem State.incSp_mem (s : State) : s.incSp.mem = s.mem := rfl
@[simp] theorem State.incSp_run (s : State) : s.incSp.run = s.run := rfl
@[simp] theorem State.incSp_out (s : State) : s.incSp.out = s.out := rfl

@[simp] theorem State.storeAtSp_regs (s : State) (v : Byte) : (s.storeAtSp v).regs = s.regs := rfl
@[simp] theorem State.storeAtSp_pc (s : State) (v : Byte) : (s.storeAtSp v).pc = s.pc := rfl
@[simp] theorem State.storeAtSp_fl (s : State) (v : Byte) : (s.storeAtSp v).fl = s.fl := rfl
@[simp] theorem State.storeAtSp_mem (s : State) (v : Byte) : (s.storeAtSp v).mem = s.mem.write s.sp.toNat v := rfl
@[simp] theorem State.storeAtSp_run (s : State) (v : Byte) : (s.storeAtSp v).run = s.run := rfl
@[simp] theorem State.storeAtSp_out (s : State) (v : Byte) : (s.storeAtSp v).out = s.out := rfl

@[simp] theorem State.clearFlags_regs (s : State) : s.clearFlags.regs = s.regs := rfl
@[simp] theorem State.clearFlags_pc (s : State) : s.clearFlags.pc = s.pc := rfl
@[simp] theorem State.clearFlags_fl (s : State) : s.clearFlags.fl = 0 := rfl
@[simp] theorem State.clearFlags_mem (s : State) : s.clearFlags.mem = s.mem := rfl
@[simp] theorem State.clearFlags_run (s : State) : s.clearFlags.run = s.run := rfl
@[simp] theorem State.clearFlags_out (s : State) : s.clearFlags.out = s.out := rfl

/-! Registers, memory and flag bits after an update that leaves them. -/

@[simp] theorem State.setReg_memRead (s : State) (r : Reg) (v : Byte) (x : Byte) : (s.setReg r v).memRead x = s.memRead x := rfl
@[simp] theorem State.setReg_flagE (s : State) (r : Reg) (v : Byte) : (s.setReg r v).flagE = s.flagE := rfl
@[simp] theorem State.setPc_reg (s : State) (v : Byte) (q : Reg) : (s.setPc v).reg q = s.reg q := rfl
@[simp] theorem State.setPc_sp (s : State) (v : Byte) : (s.setPc v).sp = s.sp := rfl
@[simp] theorem State.setPc_memRead (s : State) (v : Byte) (x : Byte) : (s.setPc v).memRead x = s.memRead x := rfl
@[simp] theorem State.setPc_flagE (s : State) (v : Byte) : (s.setPc v).flagE = s.flagE := rfl
@[simp] theorem State.setFl_reg (s : State) (v : Byte) (q : Reg) : (s.setFl v).reg q = s.reg q := rfl
@[simp] theorem State.setFl_sp (s : State) (v : Byte) : (s.setFl v).sp = s.sp := rfl
@[simp] theorem State.setFl_memRead (s : State) (v : Byte) (x : Byte) : (s.setFl v).memRead x = s.memRead x := rfl
@[simp] theorem State.memWrite_reg (s : State) (a v : Byte) (q : Reg) : (s.memWrite a v).reg q = s.reg q := rfl
@[simp] theorem State.memWrite_sp (s : State) (a v : Byte) : (s.memWrite a v).sp = s.sp := rfl
@[simp] theorem State.memWrite_flagE (s : State) (a v : Byte) : (s.memWrite a v).flagE = s.flagE := rfl
@[simp] theorem State.emit_reg (s : State) (v : Byte) (q : Reg) : (s.emit v).reg q = s.reg q := rfl
@[simp] theorem State.emit_sp (s : State) (v : Byte) : (s.emit v).sp = s.sp := rfl
@[simp] theorem State.emit_memRead (s : State) (v : Byte) (x : Byte) : (s.emit v).memRead x = s.memRead x := rfl
@[simp] theorem State.emit_flagE (s : State) (v : Byte) : (s.emit v).flagE = s.flagE := rfl
@[simp] theorem State.halt_reg (s : State) (q : Reg) : s.halt.reg q = s.reg q := rfl
@[simp] theorem State.halt_sp (s : State) : s.halt.sp = s.sp := rfl
@[simp] theorem State.halt_memRead (s : State) (x : Byte) : s.halt.memRead x = s.memRead x := rfl
@[simp] theorem State.halt_flagE (s : State) : s.halt.flagE = s.flagE := rfl
@[simp] theorem State.raiseIllegalOpcode_reg (s : State) (op : Byte) (q : Reg) : (s.raiseIllegalOpcode op).reg q = s.reg q := rfl
@[simp] theorem State.raiseIllegalOpcode_sp (s : State) (op : Byte) : (s.raiseIllegalOpcode op).sp = s.sp := rfl
@[simp] theorem State.raiseIllegalOpcode_memRead (s : State) (op : Byte) (x : Byte) : (s.raiseIllegalOpcode op).memRead x = s.memRead x := rfl
@[simp] theorem State.raiseIllegalOpcode_flagE (s : State) (op : Byte) : (s.raiseIllegalOpcode op).flagE = s.flagE := rfl
@[simp] theorem State.setSp_memRead (s : State) (v : Byte) (x : Byte) : (s.setSp v).memRead x = s.memRead x := rfl
@[simp] theorem State.setSp_flagE (s : State) (v : Byte) : (s.setSp v).flagE = s.flagE := rfl
@[simp] theorem State.decSp_memRead (s : State) (x : Byte) : s.decSp.memRead x = s.memRead x := rfl
@[simp] theorem State.decSp_flagE (s : State) : s.decSp.flagE = s.flagE := rfl
@[simp] theorem State.incSp_memRead (s : State) (x : Byte) : s.incSp.memRead x = s.memRead x := rfl
@[simp] theorem State.incSp_flagE (s : State) : s.incSp.flagE = s.flagE := rfl
@[simp] theorem State.storeAtSp_reg (s : State) (v : Byte) (q : Reg) : (s.storeAtSp v).reg q = s.reg q := rfl
@[simp] theorem State.storeAtSp_sp (s : State) (v : Byte) : (s.storeAtSp v).sp = s.sp := rfl
@[simp] theorem State.storeAtSp_flagE (s : State) (v : Byte) : (s.storeAtSp v).flagE = s.flagE := rfl
@[simp] theorem State.clearFlags_reg (s : State) (q : Reg) : s.clearFlags.reg q = s.reg q := rfl
@[simp] theorem State.clearFlags_sp (s : State) : s.clearFlags.sp = s.sp := rfl
@[simp] theorem State.clearFlags_memRead (s : State) (x : Byte) : s.clearFlags.memRead x = s.memRead x := rfl

/-! The register file: every register holds what was last written to it (10_state.md R21). -/

theorem State.setReg_reg (s : State) (r : Reg) (v : Byte) (q : Reg) :
    (s.setReg r v).reg q = if q = r then v else s.reg q := by
  simp only [State.reg, State.setReg, Fin.getElem_fin, Vector.getElem_set, Fin.val_inj,
    eq_comm (a := r)]

@[simp] theorem State.setReg_reg_same (s : State) (r : Reg) (v : Byte) :
    (s.setReg r v).reg r = v := by simp [State.setReg_reg]

theorem State.setReg_reg_other (s : State) {r q : Reg} (v : Byte) (h : q ≠ r) :
    (s.setReg r v).reg q = s.reg q := by simp [State.setReg_reg, h]

/-- Two states that agree on every register, on pc, fl, mem, run and out are the same state. -/
theorem State.ext_of_reg {s t : State} (hr : ∀ r, s.reg r = t.reg r) (hpc : s.pc = t.pc)
    (hfl : s.fl = t.fl) (hm : s.mem = t.mem) (hrun : s.run = t.run) (hout : s.out = t.out) :
    s = t := by
  cases s; cases t
  simp only [State.mk.injEq] at *
  refine ⟨Vector.ext fun i hi => ?_, hpc, hfl, hm, hrun, hout⟩
  exact hr ⟨i, hi⟩

@[simp] theorem State.setSp_sp (s : State) (v : Byte) : (s.setSp v).sp = v :=
  State.setReg_reg_same s spReg v

theorem State.setSp_reg (s : State) (v : Byte) (q : Reg) :
    (s.setSp v).reg q = if q = spReg then v else s.reg q := State.setReg_reg s spReg v q

@[simp] theorem State.decSp_sp (s : State) : s.decSp.sp = s.sp - 1 := State.setSp_sp s _

theorem State.decSp_reg (s : State) (q : Reg) :
    s.decSp.reg q = if q = spReg then s.sp - 1 else s.reg q := State.setSp_reg s _ q

@[simp] theorem State.incSp_sp (s : State) : s.incSp.sp = s.sp + 1 := State.setSp_sp s _

theorem State.incSp_reg (s : State) (q : Reg) :
    s.incSp.reg q = if q = spReg then s.sp + 1 else s.reg q := State.setSp_reg s _ q

@[simp] theorem State.pushAddr_eq (s : State) : s.pushAddr = s.sp - 1 := State.decSp_sp s

/-! The E bit as a remainder (10_state.md R27). -/

theorem State.flagE_eq (s : State) : s.flagE = decide (s.fl.toNat % 2 = 1) := by
  simp [State.flagE, BitVec.getLsbD, Nat.testBit]
  rfl

theorem State.clearFlags_flagE (s : State) : s.clearFlags.flagE = false := by
  rw [State.flagE_eq]; simp

/-! The component `fault`: present only when `run` is FAULTED (10_state.md R20, R33). -/

theorem State.fault_eq_some_iff (s : State) (r : FaultRecord) :
    s.fault = some r ↔ s.run = .faulted r := by
  unfold State.fault
  cases s.run <;> simp

end Sys2Proof.Machine
end

