-- ==== Sys2Proof/Laws/Memory.lean ====
section
/-! SUPPORT. Laws/Memory.lean: the laws of the memory list: what a read gives after each operation, and
that every operation keeps the canonical form. -/

namespace Sys2Proof.Machine

@[simp] theorem Memory.read_nil (a : Nat) : Memory.read [] a = Config.resetByte := rfl

theorem Memory.read_cons (k : Nat) (b : Byte) (rest : Memory) (a : Nat) :
    Memory.read ((k, b) :: rest) a = if k = a then b else Memory.read rest a := rfl

/-- A read where no cell is listed gives what reset left. -/
theorem Memory.read_of_forall_ne {m : Memory} {a : Nat} (h : ∀ c ∈ m, c.1 ≠ a) :
    m.read a = Config.resetByte := by
  induction m with
  | nil => rfl
  | cons c rest ih =>
    obtain ⟨k, b⟩ := c
    have hk : k ≠ a := h (k, b) (by simp)
    rw [Memory.read_cons, if_neg hk]
    exact ih fun c hc => h c (by simp [hc])

theorem Memory.mem_erase {m : Memory} {a : Nat} {c : Host.Cell} :
    c ∈ m.erase a ↔ c ∈ m ∧ c.1 ≠ a := by
  simp [Memory.erase]

theorem Memory.read_erase (m : Memory) (a x : Nat) :
    (m.erase a).read x = if x = a then Config.resetByte else m.read x := by
  split
  · next h => exact Memory.read_of_forall_ne fun c hc => by rw [h]; exact (Memory.mem_erase.mp hc).2
  · next h =>
    induction m with
    | nil => rfl
    | cons c rest ih =>
      obtain ⟨k, b⟩ := c
      by_cases hk : k = a
      · have : Memory.erase ((k, b) :: rest) a = Memory.erase rest a := by simp [Memory.erase, hk]
        rw [this, ih, Memory.read_cons, if_neg (by omega)]
      · have : Memory.erase ((k, b) :: rest) a = (k, b) :: Memory.erase rest a := by
          simp [Memory.erase, hk]
        rw [this, Memory.read_cons, Memory.read_cons, ih]

/-- Inserting a cell at an address that no cell of the list has. -/
theorem Memory.read_insert {m : Memory} {a : Nat} (v : Byte) (h : ∀ c ∈ m, c.1 ≠ a) (x : Nat) :
    (m.insert a v).read x = if x = a then v else m.read x := by
  induction m with
  | nil => simp [Memory.insert, Memory.read_cons, eq_comm (a := a)]
  | cons c rest ih =>
    obtain ⟨k, b⟩ := c
    have hk : k ≠ a := h (k, b) (by simp)
    have ih := ih fun c hc => h c (by simp [hc])
    unfold Memory.insert
    split
    · rw [Memory.read_cons, Memory.read_cons, ih]
      split <;> rename_i h1
      · rw [if_neg (by omega)]
      · rfl
    · rw [Memory.read_cons]
      simp only [eq_comm (a := a)]

/-- Read after write, at the same address and at every other. -/
theorem Memory.read_write (m : Memory) (a : Nat) (v : Byte) (x : Nat) :
    (m.write a v).read x = if x = a then v else m.read x := by
  unfold Memory.write
  split
  · next h => rw [Memory.read_erase, h]
  · rw [Memory.read_insert v (fun c hc => (Memory.mem_erase.mp hc).2), Memory.read_erase]
    split <;> rfl

theorem Memory.mem_insert {m : Memory} {a : Nat} {v : Byte} {c : Host.Cell} :
    c ∈ m.insert a v ↔ c = (a, v) ∨ c ∈ m := by
  induction m with
  | nil => simp [Memory.insert]
  | cons d rest ih =>
    obtain ⟨k, b⟩ := d
    unfold Memory.insert
    split
    · simp only [List.mem_cons, ih]; tauto
    · simp only [List.mem_cons]

theorem Memory.wf_erase {m : Memory} (h : m.wf) (a : Nat) : (m.erase a).wf :=
  ⟨h.1.filter _, fun c hc => h.2 c (Memory.mem_erase.mp hc).1⟩

theorem Memory.wf_insert {m : Memory} (h : m.wf) {a : Nat} {v : Byte} (ha : a < Config.memorySize)
    (hv : v ≠ Config.resetByte) (hne : ∀ c ∈ m, c.1 ≠ a) : (m.insert a v).wf := by
  refine ⟨?_, fun c hc => ?_⟩
  · have hs := h.1
    clear h
    induction m with
    | nil => simp [Memory.insert]
    | cons d rest ih =>
      obtain ⟨k, b⟩ := d
      rw [List.pairwise_cons] at hs
      have hk : k ≠ a := hne (k, b) (by simp)
      unfold Memory.insert
      split
      · next hlt =>
        refine List.pairwise_cons.mpr ⟨fun c hc => ?_, ih (fun c hc => hne c (by simp [hc])) hs.2⟩
        rcases Memory.mem_insert.mp hc with rfl | hc
        · exact hlt
        · exact hs.1 c hc
      · refine List.pairwise_cons.mpr ⟨fun c hc => ?_, List.pairwise_cons.mpr hs⟩
        rcases List.mem_cons.mp hc with rfl | hc
        · simp only; omega
        · have := hs.1 c hc
          simp only at this ⊢; omega
  · rcases Memory.mem_insert.mp hc with rfl | hc
    · exact ⟨ha, hv⟩
    · exact h.2 c hc

/-- A write inside the memory keeps the canonical form. -/
theorem Memory.wf_write {m : Memory} (h : m.wf) {a : Nat} (ha : a < Config.memorySize) (v : Byte) :
    (m.write a v).wf := by
  unfold Memory.write
  split
  · exact Memory.wf_erase h a
  · next hv =>
    exact Memory.wf_insert (Memory.wf_erase h a) ha hv fun c hc => (Memory.mem_erase.mp hc).2

/-- Writing a run of bytes keeps the canonical form while it stays inside the memory. -/
theorem Memory.wf_writeFrom (vs : List Byte) {m : Memory} (h : m.wf) {a : Nat}
    (ha : a + vs.length ≤ Config.memorySize) : (m.writeFrom a vs).wf := by
  induction vs generalizing m a with
  | nil => exact h
  | cons v vs ih =>
    simp only [List.length_cons] at ha
    exact ih (Memory.wf_write h (by omega) v) (by omega)

theorem Memory.wf_reset : State.reset.mem.wf := by decide

theorem addr_lt_memorySize (a : Byte) : a.toNat < Config.memorySize := a.isLt

/-- `MemRead` after `MemWrite` (20_memory.md R51, R52). -/
theorem State.memWrite_memRead (s : State) (a v x : Byte) :
    (s.memWrite a v).memRead x = if x = a then v else s.memRead x := by
  simp only [State.memRead, State.memWrite, Memory.read_write, BitVec.toNat_inj]

theorem State.memWrite_wf {s : State} (h : s.mem.wf) (a v : Byte) : (s.memWrite a v).mem.wf :=
  Memory.wf_write h (addr_lt_memorySize a) v

theorem State.storeAtSp_memRead (s : State) (v x : Byte) :
    (s.storeAtSp v).memRead x = if x = s.sp then v else s.memRead x :=
  State.memWrite_memRead s s.sp v x

theorem State.storeAtSp_wf {s : State} (h : s.mem.wf) (v : Byte) : (s.storeAtSp v).mem.wf :=
  State.memWrite_wf h s.sp v

/-- What the fetch reads after the three bytes of a fetch were stored at pc. -/
theorem State.storeFetched_fetch (s : State) (f : Fetched) : (s.storeFetched f).fetch = f := by
  obtain ⟨op, a, b⟩ := f
  simp [State.fetch, State.storeFetched, State.memWrite_memRead]

end Sys2Proof.Machine
end

