-- ==== Sys2Proof/Laws/Exec.lean ====
section
/-! SUPPORT. Laws/Exec.lean: what each shared operation and each execute part gives, and the one
inversion of the step. -/

namespace Sys2Proof.Machine

/-! The ALU (41_alu.md R120). -/

theorem aluAdd_toNat (x y : Byte) : (aluAdd x y).toNat = (x.toNat + y.toNat) % 256 := by
  simp [aluAdd]

theorem aluMul_toNat (x y : Byte) : (aluMul x y).toNat = (x.toNat * y.toNat) % 256 := by
  simp [aluMul]

/-- CMP's three cases (41_alu.md R123). -/
theorem compareFlags_cases (x y : Byte) :
    (x.toNat = y.toNat ∧ compareFlags x y = 0x01) ∨ (y.toNat < x.toNat ∧ compareFlags x y = 0x02) ∨
      (x.toNat < y.toNat ∧ compareFlags x y = 0x04) := by
  unfold compareFlags
  split
  · next h => exact .inl ⟨by rw [h], rfl⟩
  · next h =>
    have hne : x.toNat ≠ y.toNat := fun h' => h (BitVec.eq_of_toNat_eq h')
    split
    · next hlt => exact .inr (.inl ⟨hlt, rfl⟩)
    · exact .inr (.inr ⟨by omega, rfl⟩)

theorem compareFlags_legal (x y : Byte) : FlagsLegal (compareFlags x y) := by
  rcases compareFlags_cases x y with ⟨_, h⟩ | ⟨_, h⟩ | ⟨_, h⟩ <;> rw [h] <;> decide

/-! The execute parts, one equation each. -/

theorem exec_add (a b : Reg) (s : State) :
    exec (.add a b) s = .next (s.setReg a (aluAdd (s.reg a) (s.reg b))) := rfl

theorem exec_mul (a b : Reg) (s : State) :
    exec (.mul a b) s = .next (s.setReg a (aluMul (s.reg a) (s.reg b))) := rfl

theorem exec_cmp (a b : Reg) (s : State) :
    exec (.cmp a b) s = .next (s.setFl (compareFlags (s.reg a) (s.reg b))) := rfl

theorem exec_ldi (r : Reg) (imm : Byte) (s : State) :
    exec (.ldi r imm) s = .next (s.setReg r imm) := rfl

theorem exec_prn (r : Reg) (s : State) : exec (.prn r) s = .next (s.emit (s.reg r)) := rfl

theorem exec_push (r : Reg) (s : State) :
    exec (.push r) s = .next (s.decSp.storeAtSp (s.decSp.reg r)) := rfl

theorem exec_pop (r : Reg) (s : State) :
    exec (.pop r) s = .next (s.setReg r s.loadAtSp).incSp := rfl

theorem exec_call (r : Reg) (s : State) :
    exec (.call r) s = .next ((s.decSp.storeAtSp s.pcPlus2).setPc (s.decSp.target r)) := rfl

theorem exec_ret (s : State) : exec .ret s = .next (s.setPc s.loadAtSp).incSp := rfl

theorem exec_jmp (r : Reg) (s : State) : exec (.jmp r) s = .next (s.setPc (s.target r)) := rfl

theorem exec_jeq (r : Reg) (s : State) :
    exec (.jeq r) s = .next (s.setPc (if s.flagE then s.target r else s.pcPlus2)).clearFlags := rfl

theorem exec_jne (r : Reg) (s : State) :
    exec (.jne r) s = .next (s.setPc (if s.flagE then s.pcPlus2 else s.target r)).clearFlags := rfl

theorem exec_hlt (s : State) : exec .hlt s = .next s.halt := rfl

/-! The advancement of pc (40_cycle.md R106, R107). -/

theorem State.advancePc_pc (s : State) (d : Descriptor) :
    (s.advancePc d).pc = if d.setsPc then s.pc else s.pc + BitVec.ofNat 8 (d.operandCount + 1) := by
  unfold State.advancePc; split <;> rfl

@[simp] theorem State.advancePc_regs (s : State) (d : Descriptor) : (s.advancePc d).regs = s.regs := by
  unfold State.advancePc; split <;> rfl

@[simp] theorem State.advancePc_fl (s : State) (d : Descriptor) : (s.advancePc d).fl = s.fl := by
  unfold State.advancePc; split <;> rfl

@[simp] theorem State.advancePc_mem (s : State) (d : Descriptor) : (s.advancePc d).mem = s.mem := by
  unfold State.advancePc; split <;> rfl

@[simp] theorem State.advancePc_run (s : State) (d : Descriptor) : (s.advancePc d).run = s.run := by
  unfold State.advancePc; split <;> rfl

@[simp] theorem State.advancePc_out (s : State) (d : Descriptor) : (s.advancePc d).out = s.out := by
  unfold State.advancePc; split <;> rfl

@[simp] theorem State.advancePc_reg (s : State) (d : Descriptor) (r : Reg) :
    (s.advancePc d).reg r = s.reg r := by unfold State.advancePc; split <;> rfl

@[simp] theorem State.advancePc_memRead (s : State) (d : Descriptor) (a : Byte) :
    (s.advancePc d).memRead a = s.memRead a := by unfold State.advancePc; split <;> rfl

/-! The step, inverted once. -/

/-- What a step that answers a next state has done: it was RUNNING, and either the fetched byte was no
opcode and the exception was taken, or the decoded instruction answered and pc was advanced. -/
theorem step_cases {s t : State} (h : step s = .next t) :
    s.run = .running ∧
      ((opcodeMap.tagOf s.fetch.op = none ∧ t = s.raiseIllegalOpcode s.fetch.op) ∨
        ∃ d u, decode s.fetch = .ok d ∧ exec d.instr s = .next u ∧ t = u.advancePc d) := by
  unfold step at h
  split at h
  · cases h
  · cases h
  · next hrun =>
    refine ⟨hrun, ?_⟩
    split at h
    · next op hd =>
      cases h
      obtain ⟨he, hn⟩ := decode_error hd
      cases he
      exact .inl ⟨hn, rfl⟩
    · next d hd =>
      right
      unfold advanceOutcome at h
      split at h
      · next u hu => cases h; exact ⟨d, u, hd, hu, rfl⟩
      · cases h
      · cases h

end Sys2Proof.Machine
end

