-- ==== Sys2Proof/Laws/PerInstr.lean ====
section
/-! SUPPORT. Laws/PerInstr.lean: a fact about every instruction as syntax, one lemma for each constructor.

The family `Shape`: the length of an instruction's bytes is one more than the operand count in bits 7:6 of
its first byte (30_encoding.md R80), the first byte's structural bits are those of the instruction list
(R87), and the instruction is well-formed under the hardware's map. -/

namespace Sys2Proof.Laws.Shape

/-- The shape of an instruction's bytes (30_encoding.md R80, R87, R90). -/
def Statement (i : Instr) : Prop :=
  i.wfUnder opcodeMap = true ∧ ∃ op, (encode i).head? = some op ∧
    (encode i).length = opCount op + 1 ∧ opCount op = i.mnemonic.operandCount ∧
    opSetsPc op = i.mnemonic.setsPc

/-- The operand bytes settle the shape: the rest is what a well-formed map says of the tag. -/
theorem of_operandBytes {i : Instr} (hl : (operandBytes i).length = i.mnemonic.operandCount) :
    Statement i := by
  obtain ⟨-, hc, hs⟩ := OpcodeMap.wf_tag opcodeMap_wf i.mnemonic
  have hl' : (encode i).length = opCount (opcodeMap.byteOf i.mnemonic) + 1 := by
    rw [hc, ← hl]; rfl
  refine ⟨?_, _, rfl, hl', hc, hs⟩
  rw [Instr.wfUnder, OpcodeMap.countAgrees, OpcodeMap.setsPcAgrees, Bool.and_eq_true, beq_iff_eq,
    beq_iff_eq]
  exact ⟨hc, hs⟩

theorem add (a b : Reg) : Statement (.add a b) := of_operandBytes rfl
theorem mul (a b : Reg) : Statement (.mul a b) := of_operandBytes rfl
theorem cmp (a b : Reg) : Statement (.cmp a b) := of_operandBytes rfl
theorem ldi (r : Reg) (imm : Byte) : Statement (.ldi r imm) := of_operandBytes rfl
theorem prn (r : Reg) : Statement (.prn r) := of_operandBytes rfl
theorem push (r : Reg) : Statement (.push r) := of_operandBytes rfl
theorem pop (r : Reg) : Statement (.pop r) := of_operandBytes rfl
theorem call (r : Reg) : Statement (.call r) := of_operandBytes rfl
theorem ret : Statement .ret := of_operandBytes rfl
theorem jmp (r : Reg) : Statement (.jmp r) := of_operandBytes rfl
theorem jeq (r : Reg) : Statement (.jeq r) := of_operandBytes rfl
theorem jne (r : Reg) : Statement (.jne r) := of_operandBytes rfl
theorem hlt : Statement .hlt := of_operandBytes rfl

end Sys2Proof.Laws.Shape
end

