-- ==== Sys2Proof/Tests/Slice0.lean ====
section
/-! SUPPORT. Tests/Slice0.lean: the model's own tests.  Expected results are hand computed from the rules or
taken from the vectors of 95_test_vectors.md, whose number each test names. -/

namespace Sys2Proof.Tests

open Sys2Proof.Machine

/-- The reset state with pc at `p` and three bytes stored there (addresses modulo 256). -/
def stateAt (p : Byte) (f : Fetched) : State := (State.reset.setPc p).storeFetched f

/-- What one step leads to, looked at through `g`. -/
def after {α : Type} (g : State → α) (s : State) : Option α := (nextState? (step s)).map g

/-! ## WellFormed: each check refuses an ill-formed term -/

theorem test_wf_refuses_equal_bytes : OpcodeMap.wf { opcodeMap with mul := 0xA0 } = false := by decide
theorem test_wf_distinct_is_the_check_that_refuses :
    OpcodeMap.distinct { opcodeMap with mul := 0xA0 } = false := by decide
theorem test_wf_refuses_wrong_operand_count :
    OpcodeMap.countAgrees { opcodeMap with ldi := 0x42 } .ldi = false := by decide
theorem test_wf_refuses_wrong_sets_pc_bit :
    OpcodeMap.setsPcAgrees { opcodeMap with jmp := 0x44 } .jmp = false := by decide
theorem test_wf_refuses_instruction_under_bad_map :
    Instr.wfUnder { opcodeMap with jmp := 0x44 } (.jmp 0) = false := by decide
theorem test_wf_refuses_long_image : imageFits (List.replicate 257 0) = false := by
  rw [imageFits, List.length_replicate]; decide
theorem test_wf_accepts_full_image : imageFits (List.replicate 256 1) = true := by
  rw [imageFits, List.length_replicate]; decide
theorem test_wf_accepts_another_map : OpcodeMap.wf { opcodeMap with add := 0xA1 } = true := by decide

/-! ## Decoding: one word for each constructor, written from 30_encoding.md R86 and R83 -/

-- vector A6: 0xFB selects R3, 0x0C selects R4
theorem test_decode_add : decodeTableWord 24 0b000011001111101110100000 = some (.add 3 4) := by decide
theorem test_decode_mul : decodeTableWord 24 0b000000010000000010100010 = some (.mul 0 1) := by decide
theorem test_decode_cmp : decodeTableWord 24 0b000000100000011110100111 = some (.cmp 7 2) := by decide
-- vector L3 with immediate 0xC8
theorem test_decode_ldi : decodeTableWord 24 0b110010000000101110000010 = some (.ldi 3 0xC8) := by decide
theorem test_decode_prn : decodeTableWord 16 0b0000100101000111 = some (.prn 1) := by decide
theorem test_decode_push : decodeTableWord 16 0b0000011101000101 = some (.push 7) := by decide
theorem test_decode_pop : decodeTableWord 16 0b0000000101000110 = some (.pop 1) := by decide
theorem test_decode_call : decodeTableWord 16 0b0000000101010000 = some (.call 1) := by decide
theorem test_decode_ret : decodeTableWord 8 0b00010001 = some .ret := by decide
theorem test_decode_jmp : decodeTableWord 16 0b0000001001010100 = some (.jmp 2) := by decide
theorem test_decode_jeq : decodeTableWord 16 0b0000001001010101 = some (.jeq 2) := by decide
theorem test_decode_jne : decodeTableWord 16 0b1111101101010110 = some (.jne 3) := by decide
theorem test_decode_hlt : decodeTableWord 8 0b00000001 = some .hlt := by decide
-- vectors F2 to F5
theorem test_decode_rejects : (decodeTableWord 24 0x050042, decodeTableWord 8 0xC2,
    decodeTableWord 24 0x0100A1, decodeTableWord 8 0x00) = (none, none, none, none) := by decide
theorem test_encode_push : encode (.push 3) = [0x45, 0x03] := by decide
theorem test_encode_ldi : encode (.ldi 0 8) = [0x82, 0x00, 0x08] := by decide

/-! ## The assembly syntax (30_encoding.md R92) -/

theorem test_asm_add : asmText (.add 0 1) = ['A', 'D', 'D', ' ', 'R', '0', ',', ' ', 'R', '1'] := by
  decide
theorem test_asm_hex_and_sp :
    assembleLine ['L', 'D', 'I', ' ', 's', 'p', ',', ' ', '0', 'x', 'F', 'f'] = some (.ldi 7 255) := by
  decide
theorem test_asm_refuses_256 :
    assembleLine ['L', 'D', 'I', ' ', 'R', '0', ',', ' ', '2', '5', '6'] = none := by decide

/-! ## Instructions: one step each -/

-- A1
theorem test_add_wraps :
    after (fun t => (t.reg 0, t.reg 1, t.pc)) (((stateAt 0 ⟨0xA0, 0, 1⟩).setReg 0 200).setReg 1 100) =
      some (44, 100, 3) := by decide
-- A7
theorem test_add_to_sp : after State.sp ((stateAt 0 ⟨0xA0, 7, 1⟩).setReg 1 12) = some 0 := by decide
-- M3, with fl unchanged
theorem test_mul_low_byte :
    after (fun t => (t.reg 0, t.fl)) ((((stateAt 0 ⟨0xA2, 0, 1⟩).setReg 0 255).setReg 1 255).setFl 2) =
      some (1, 2) := by decide
-- M7
theorem test_mul_same_register :
    after (fun t => t.reg 0) ((stateAt 0 ⟨0xA2, 0, 0⟩).setReg 0 16) = some 0 := by decide
-- C4
theorem test_cmp_is_unsigned :
    after State.fl ((stateAt 0 ⟨0xA7, 0, 1⟩).setReg 1 255) = some 0x04 := by decide
-- C7
theorem test_cmp_assigns_and_does_not_toggle :
    after State.fl ((stateAt 0 ⟨0xA7, 0, 1⟩).setFl 1) = some 0x01 := by decide
-- F6
theorem test_ldi_straddles_the_top :
    after (fun t => (t.reg 2, t.pc)) (stateAt 0xFE ⟨0x82, 2, 0x82⟩) = some (0x82, 0x01) := by decide
-- L4
theorem test_ldi_sets_sp : after State.sp (stateAt 0 ⟨0x82, 7, 0x80⟩) = some 0x80 := by decide
-- O1
theorem test_prn : after (fun t => (t.out, t.pc)) ((stateAt 3 ⟨0x47, 0, 0⟩).setReg 0 8) =
    some ([8], 5) := by decide
-- O3, after an earlier event
theorem test_prn_appends : after State.out (((stateAt 3 ⟨0x47, 9, 0⟩).setReg 1 0xFF).emit 8) =
    some [8, 255] := by decide
-- K3
theorem test_push_wraps :
    after (fun t => (t.sp, t.memRead 255, t.pc)) ((((stateAt 16 ⟨0x45, 0, 0⟩).setReg 0 7)).setSp 0) =
      some (255, 7, 18) := by decide
-- K6
theorem test_push_sp : after (fun t => (t.sp, t.memRead 243)) (stateAt 0 ⟨0x45, 7, 0⟩) =
    some (243, 243) := by decide
-- K4
theorem test_pop_wraps :
    after (fun t => (t.reg 2, t.sp, t.memRead 255)) (((stateAt 0 ⟨0x46, 2, 0⟩).setSp 255).memWrite 255 7) =
      some (7, 0, 7) := by decide
-- K7
theorem test_pop_sp : after State.sp ((stateAt 0 ⟨0x46, 7, 0⟩).memWrite 244 0x10) = some 0x11 := by decide
-- T2
theorem test_call_at_the_top :
    after (fun t => (t.memRead 243, t.pc, t.sp)) ((stateAt 0xFF ⟨0x50, 1, 0⟩).setReg 1 0x40) =
      some (0x01, 0x40, 243) := by decide
-- T3
theorem test_call_sp : after (fun t => (t.memRead 243, t.pc)) (stateAt 0x10 ⟨0x50, 7, 0⟩) =
    some (0x12, 243) := by decide
-- T5
theorem test_ret_wraps :
    after (fun t => (t.pc, t.sp)) (((stateAt 0 ⟨0x11, 0, 0⟩).setSp 255).memWrite 255 0x33) =
      some (0x33, 0) := by decide
-- T6
theorem test_jmp : after (fun t => (t.pc, t.fl)) (((stateAt 0 ⟨0x54, 2, 0⟩).setReg 2 0x30).setFl 4) =
    some (0x30, 4) := by decide
-- T7
theorem test_jeq_taken :
    after (fun t => (t.pc, t.fl)) (((stateAt 0x10 ⟨0x55, 2, 0⟩).setReg 2 0x30).setFl 1) =
      some (0x30, 0) := by decide
-- T15
theorem test_jeq_not_taken_wraps :
    after (fun t => (t.pc, t.fl)) (((stateAt 0xFE ⟨0x55, 2, 0⟩).setReg 2 0x30).setFl 2) =
      some (0x00, 0) := by decide
-- T11
theorem test_jne_not_taken :
    after (fun t => (t.pc, t.fl)) (((stateAt 0x14 ⟨0x56, 3, 0⟩).setReg 3 0x0C).setFl 1) =
      some (0x16, 0) := by decide
-- T14
theorem test_jne_taken_with_no_flag :
    after (fun t => (t.pc, t.fl)) ((stateAt 0x14 ⟨0x56, 3, 0⟩).setReg 3 0x0C) = some (0x0C, 0) := by decide
-- T16
theorem test_hlt : after (fun t => (t.run, t.pc)) (stateAt 5 ⟨0x01, 0, 0⟩) = some (.halted, 6) := by decide

/-! ## Exception, terminal states, image load, host -/

-- F1: from reset with nothing loaded
theorem test_reset_faults_on_zero : step State.reset =
    .next { State.reset with run := .faulted ⟨0, 0⟩ } := rfl
-- F2
theorem test_illegal_opcode :
    after (fun t => (t.fault, t.pc, t.sp)) (stateAt 0x10 ⟨0x42, 0, 5⟩) =
      some (some ⟨0x42, 0x10⟩, 0x10, 244) := by decide
-- F8
theorem test_no_step_when_halted : step (State.reset.halt) = .fault .noStepHalted := rfl
-- F9
theorem test_no_step_when_faulted :
    step (State.reset.raiseIllegalOpcode 0x42) = .fault (.noStepFaulted ⟨0x42, 0⟩) := rfl
-- program P1's image
theorem test_boot_places_the_image :
    (nextState? (boot [0x82, 0, 8, 0x47, 0, 1])).map (fun s => (s.memRead 0, s.memRead 5, s.memRead 6)) =
      some (0x82, 1, 0) := by decide
theorem test_host_reads_fault :
    hostResult (State.reset.raiseIllegalOpcode 0x42) = some ⟨1, some ⟨0x42, 0⟩, []⟩ := by decide
theorem test_memory_forgets_a_zero :
    ((State.reset.memWrite 9 7).memWrite 9 0).mem = State.reset.mem := by decide

/-! ## Witnesses: for each statement with hypotheses, values that meet all of them together -/

/-- A RUNNING state whose fetched bytes decode: the hypotheses of StepRunsTheDecodedInstruction and
NextPcIsThatOfTheTable (here an instruction that advances; `witness_call_then_ret` has one that sets
pc). -/
theorem witness_running_and_decoding :
    (stateAt 0 ⟨0x82, 3, 9⟩).run = .running ∧
      decode (stateAt 0 ⟨0x82, 3, 9⟩).fetch = .ok ⟨.ldi 3 9, 2, false⟩ := by decide

/-- Both cases of StepRunsTheDecodedInstruction: an instruction that advances and one that sets pc. -/
theorem witness_step_clauses :
    (nextState? (exec (.ldi 3 9) State.reset)).isSome ∧ (nextState? (exec (.jmp 3) State.reset)).isSome ∧
      decode ⟨0x82, 3, 9⟩ = .ok ⟨.ldi 3 9, 2, false⟩ ∧ decode ⟨0x54, 3, 0⟩ = .ok ⟨.jmp 3, 1, true⟩ := by
  decide

/-- IgnoredOperandBitsMakeNoDifference: different bytes that agree where they count. -/
theorem witness_ignored_operand_bits :
    (1 ≤ (0xA0 : Byte).toNat / 64 → (0xFB : Byte).toNat % 8 = (0x03 : Byte).toNat % 8) ∧
      ((0xA0 : Byte).toNat / 64 = 2 → (0x0C : Byte).toNat % 8 = (0x04 : Byte).toNat % 8) ∧
      ((0xA0 : Byte) = opcodeMap.ldi → (0x0C : Byte) = 0x04) := by decide

/-- DescriptorCarriesTagCountAndSetsPcFlag and EncodeGivesBackTheFetchedBytes, at the largest operand
count and with ignored bits set. -/
theorem witness_decode_ok : decode ⟨0xA0, 0xFB, 0x0C⟩ = .ok ⟨.add 3 4, 2, false⟩ := by decide

/-- DecodeInvertsEncodeUnderEveryWellFormedMap: the hardware's map, and `test_wf_accepts_another_map`
another one. -/
theorem witness_map_wf : opcodeMap.wf = true := by decide

/-- CanonicalMemoriesWithEqualCellsAreEqual. -/
theorem witness_canonical_memories :
    Memory.wf [(0, 1), (255, 2)] ∧ Memory.wf ((Memory.write [] 255 2).write 0 1) ∧
      ∀ a < 256, Memory.read [(0, 1), (255, 2)] a = ((Memory.write [] 255 2).write 0 1).read a :=
  ⟨by decide, by decide, fun a _ => by
    rw [show ((Memory.write [] 255 2).write 0 1) = [(0, 1), (255, 2)] by decide]⟩

/-- BootPlacesTheImageOrRefusesIt: both clauses at their boundary. -/
theorem witness_image_lengths :
    (List.replicate 256 (1 : Byte)).length ≤ 256 ∧ 256 < (List.replicate 257 (1 : Byte)).length := by
  rw [List.length_replicate, List.length_replicate]; decide

/-- EveryStepKeepsTheInvariant: a state that meets the invariant and steps, with a flag set. -/
theorem witness_invariant_step :
    ((stateAt 0 ⟨0x45, 7, 0⟩).setFl 4).Inv ∧
      (nextState? (step ((stateAt 0 ⟨0x45, 7, 0⟩).setFl 4))).isSome := by decide

/-- EveryReachableStateMeetsTheInvariant: the start of a run. -/
theorem witness_reachable : Reachable State.reset := ⟨[], State.reset, rfl, .refl⟩

/-- UnknownOpcodeTakesTheExceptionAndChangesNothingElse. -/
theorem witness_unknown_opcode :
    (stateAt 0xFF ⟨0xC2, 0, 0⟩).run = .running ∧
      (stateAt 0xFF ⟨0xC2, 0, 0⟩).memRead (stateAt 0xFF ⟨0xC2, 0, 0⟩).pc ∉ legalOpcodes := by decide

/-- FaultRecordHoldsTheOpcodeAndItsPc: a step that leads to FAULTED. -/
theorem witness_fault_record :
    after State.fault (stateAt 0xFF ⟨0xC2, 0, 0⟩) = some (some ⟨0xC2, 0xFF⟩) := by decide

/-- AStepExistsExactlyWhenRunning: each of the three run states. -/
theorem witness_run_states :
    State.reset.run = .running ∧ State.reset.halt.run = .halted ∧
      (State.reset.raiseIllegalOpcode 7).run = .faulted ⟨7, 0⟩ := by decide

/-- RunStateIsLeftOnlyByHltOrUnknownOpcode: steps to each of the three run states. -/
theorem witness_run_state_changes :
    after State.run (stateAt 0 ⟨0x01, 0, 0⟩) = some .halted ∧
      after State.run (stateAt 0 ⟨0x02, 0, 0⟩) = some (.faulted ⟨0x02, 0⟩) ∧
      after State.run (stateAt 0 ⟨0x82, 0, 0⟩) = some .running := by decide

/-- The step clauses of the LDI, PRN and HLT statements, where pc wraps. -/
theorem witness_opcode_at_pc :
    ((stateAt 0xFF ⟨0x82, 0, 0⟩).run = .running ∧
      (stateAt 0xFF ⟨0x82, 0, 0⟩).memRead (stateAt 0xFF ⟨0x82, 0, 0⟩).pc = opcodeMap.ldi) ∧
    ((stateAt 0xFF ⟨0x47, 0, 0⟩).run = .running ∧
      (stateAt 0xFF ⟨0x47, 0, 0⟩).memRead (stateAt 0xFF ⟨0x47, 0, 0⟩).pc = opcodeMap.prn) ∧
    ((stateAt 0xFF ⟨0x01, 0, 0⟩).run = .running ∧
      (stateAt 0xFF ⟨0x01, 0, 0⟩).memRead (stateAt 0xFF ⟨0x01, 0, 0⟩).pc = opcodeMap.hlt) := by decide

/-- PushStoresBelowTheStackPointer, PopLoadsTheTopOfTheStack, CallPushesTheReturnAddressAndJumps and
PushThenPopCopiesTheRegister: registers of both clauses (R7 and another), SP at both ends of memory. -/
theorem witness_stack_clauses :
    (0 : Reg) ≠ 7 ∧ (State.reset.setSp 0).pushAddr = 255 ∧ (State.reset.setSp 255).incSp.sp = 0 := by
  decide

/-- JeqBranchesOnEqualAndClearsTheFlags and JneBranchesOnNotEqualAndClearsTheFlags: both clauses. -/
theorem witness_flag_clauses :
    (State.reset.setFl 1).fl.toNat % 2 = 1 ∧ (State.reset.setFl 4).fl.toNat % 2 = 0 := by decide

/-- FlagsAreWrittenByCmpAndSpentByConditionalJumps: the fifth clause, and both ways into the sixth with
a flags value that differs. -/
theorem witness_flag_rule :
    ((Instr.add 0 1).mnemonic ≠ .cmp ∧ (Instr.add 0 1).mnemonic ≠ .jeq ∧
      (Instr.add 0 1).mnemonic ≠ .jne) ∧
    (Instr.cmp 0 1).mnemonic = .cmp ∧ (0x02 : Byte).toNat % 2 = State.reset.fl.toNat % 2 := by decide

/-- AStepChangesFlagsOnlyByCmpJeqJne: a step that changes `fl`. -/
theorem witness_flags_change : after State.fl (stateAt 0 ⟨0xA7, 0, 0⟩) = some 1 ∧
    (stateAt 0 ⟨0xA7, 0, 0⟩).fl = 0 := by decide

/-- OnlyPrnAppendsToTheOutput: a step of each clause. -/
theorem witness_output_clauses :
    decode (stateAt 0 ⟨0x47, 1, 0⟩).fetch = .ok ⟨.prn 1, 1, false⟩ ∧
      (nextState? (step (stateAt 0 ⟨0x47, 1, 0⟩))).isSome ∧
      decode (stateAt 0 ⟨0x01, 1, 0⟩).fetch = .ok ⟨.hlt, 0, false⟩ ∧
      (nextState? (step (stateAt 0 ⟨0x01, 1, 0⟩))).isSome := by decide

/-- AStepWritesOnlyTheRegistersOfTheTable: a step that changes a register. -/
theorem witness_register_change : after (fun t => t.reg 3) (stateAt 0 ⟨0x82, 3, 9⟩) = some 9 ∧
    (stateAt 0 ⟨0x82, 3, 9⟩).reg 3 = 0 := by decide

/-- AnInstructionReadsOnlyTheRegistersOfTheTable: a register not read, written and not written. -/
theorem witness_register_not_read :
    (3 : Reg) ∉ regReads (.ldi 3 9) ∧ (3 : Reg) ∈ regWrites (.ldi 3 9) ∧
      (3 : Reg) ∉ regReads (.push 0) ∧ (3 : Reg) ∉ regWrites (.push 0) := by decide

/-- AStepWritesMemoryOnlyByPushAndCall: a step that changes a cell. -/
theorem witness_cell_change :
    after (fun t => t.memRead 243) (stateAt 0 ⟨0x45, 7, 0⟩) = some 243 ∧
      (stateAt 0 ⟨0x45, 7, 0⟩).memRead 243 = 0 := by decide

/-- AnInstructionReadsMemoryOnlyAtTheStackPointer: an address that is not SP's, and one that the
instruction stores to. -/
theorem witness_cell_not_read :
    ((Instr.mnemonic .ret = .pop ∨ Instr.mnemonic .ret = .ret) → (9 : Byte) ≠ State.reset.sp) ∧
      (243 : Byte) ∈ memWrites (.push 0) State.reset := by decide

/-- APushedByteIsSeenByTheNextFetch: a PUSH R7 that stores just behind itself, and one that stores over its
own opcode. -/
theorem witness_push_behind_itself :
    (stateAt 241 ⟨0x45, 7, 0⟩).run = .running ∧
      decode (stateAt 241 ⟨0x45, 7, 0⟩).fetch = .ok ⟨.push 7, 1, false⟩ ∧
      (stateAt 241 ⟨0x45, 7, 0⟩).sp - 1 = (stateAt 241 ⟨0x45, 7, 0⟩).pc + 2 ∧
      (stateAt 243 ⟨0x45, 0, 0⟩).sp - 1 = (stateAt 243 ⟨0x45, 0, 0⟩).pc := by decide

/-- BalancedPushesAndPopsRestoreTheRegisters: 256 registers, the most the statement takes. -/
theorem witness_balanced_pushes :
    (List.replicate 256 (6 : Reg)).length ≤ 256 ∧ ∀ r ∈ List.replicate 256 (6 : Reg), r ≠ 7 :=
  ⟨by rw [List.length_replicate], fun r hr => by rw [List.eq_of_mem_replicate hr]; decide⟩

/-- CallThenRetReturns: a CALL R1 to a RET at address 0x20, and a CALL R7 that runs into the byte 0x11 it
pushes. -/
theorem witness_call_then_ret :
    decode (((stateAt 0 ⟨0x50, 1, 0⟩).setReg 1 0x20).memWrite 0x20 0x11).fetch =
      .ok ⟨.call 1, 1, true⟩ ∧
    after (fun t => t.memRead t.pc) (((stateAt 0 ⟨0x50, 1, 0⟩).setReg 1 0x20).memWrite 0x20 0x11) =
      some opcodeMap.ret ∧
    after (fun t => t.memRead t.pc) (stateAt 0x0F ⟨0x50, 7, 0⟩) = some opcodeMap.ret := by decide

/-- FuelRunReportsExactlyTheEndsOfRuns: a run that ends, with its final state. -/
theorem witness_run_that_ends :
    runFuel 1 State.reset = .ended { State.reset with run := .faulted ⟨0, 0⟩ } := by decide

/-- JumpToItselfNeverEnds. -/
theorem witness_jump_to_itself :
    ((stateAt 0x30 ⟨0x54, 2, 0⟩).setReg 2 0x30).run = .running ∧
      decode ((stateAt 0x30 ⟨0x54, 2, 0⟩).setReg 2 0x30).fetch = .ok ⟨.jmp 2, 1, true⟩ ∧
      ((stateAt 0x30 ⟨0x54, 2, 0⟩).setReg 2 0x30).reg 2 = ((stateAt 0x30 ⟨0x54, 2, 0⟩).setReg 2 0x30).pc := by
  decide

/-- HostReadsHaltedAsExit0AndFaultedAsExit1: `witness_run_states` has each run state; here the readings
differ. -/
theorem witness_host_readings :
    hostResult State.reset = none ∧ hostResult State.reset.halt = some ⟨0, none, []⟩ := by decide

/-- AfterAConditionalJumpJeqFallsThroughAndJneBranches: both instructions of the hypothesis. -/
theorem witness_conditional_jumps :
    (Instr.jeq 2 = .jeq 2 ∨ Instr.jeq 2 = .jne 2) ∧ (Instr.jne 2 = .jeq 2 ∨ Instr.jne 2 = .jne 2) := by
  decide

/-- AStoredTableWordIsWhatTheNextStepRuns. -/
theorem witness_table_word : decodeTableWord 24 0x080082 = some (.ldi 0 8) := by decide

end Sys2Proof.Tests
end

section
/-! PROOFS of the family 10_state.md, its layer of rules: what an execute part does to each component of
the state it is not chiefly about (flags, memory, run state, output), and the step and the run inverted
through those rules. -/

namespace Sys2Proof.Machine

/-! ## One rule for each component under an execute part -/

/-- The flags after an execute part: CMP assigns, JEQ and JNE clear, all others leave them
(10_state.md R28). -/
theorem exec_fl_cases {i : Instr} {s t : State} (h : exec i s = .next t) :
    (∃ a b, i = .cmp a b ∧ t.fl = compareFlags (s.reg a) (s.reg b)) ∨
      ((i.mnemonic = .jeq ∨ i.mnemonic = .jne) ∧ t.fl = 0) ∨ t.fl = s.fl := by
  cases i with
  | cmp a b => cases h; exact .inl ⟨a, b, rfl, rfl⟩
  | jeq r => cases h; exact .inr (.inl ⟨.inl rfl, rfl⟩)
  | jne r => cases h; exact .inr (.inl ⟨.inr rfl, rfl⟩)
  | _ => cases h; exact .inr (.inr rfl)

/-- The memory after an execute part: PUSH and CALL write the cell below SP, all others write none
(20_memory.md R54). -/
theorem exec_mem_cases {i : Instr} {s t : State} (h : exec i s = .next t) :
    ((i.mnemonic = .push ∨ i.mnemonic = .call) ∧
        ∃ v, t.mem = (s.memWrite s.pushAddr v).mem) ∨ t.mem = s.mem := by
  cases i with
  | push r => cases h; exact .inl ⟨.inl rfl, s.decSp.reg r, rfl⟩
  | call r => cases h; exact .inl ⟨.inr rfl, s.pcPlus2, rfl⟩
  | _ => cases h; exact .inr rfl

/-- The run state after an execute part: only HLT leaves it (40_cycle.md R108). -/
theorem exec_run_cases {i : Instr} {s t : State} (h : exec i s = .next t) :
    (i = .hlt ∧ t.run = .halted) ∨ (i ≠ .hlt ∧ t.run = s.run) := by
  cases i with
  | hlt => cases h; exact .inl ⟨rfl, rfl⟩
  | _ => cases h; exact .inr ⟨nofun, rfl⟩

/-- The output after an execute part: only PRN appends to it (10_state.md R34). -/
theorem exec_out_cases {i : Instr} {s t : State} (h : exec i s = .next t) :
    (∃ r, i = .prn r ∧ t.out = s.out ++ [s.reg r]) ∨ (i.mnemonic ≠ .prn ∧ t.out = s.out) := by
  cases i with
  | prn r => cases h; exact .inl ⟨r, rfl, rfl⟩
  | _ => cases h; exact .inr ⟨nofun, rfl⟩

/-! ## What an execute part does when the flags alone are changed -/

/-- An instruction other than CMP, JEQ and JNE does the same whatever `fl` holds, and leaves it. -/
theorem exec_setFl_of_not_flag_instr {i : Instr} (s : State) (v : Byte) (hcmp : i.mnemonic ≠ .cmp)
    (hjeq : i.mnemonic ≠ .jeq) (hjne : i.mnemonic ≠ .jne) :
    ∃ t, exec i s = .next t ∧ t.fl = s.fl ∧ exec i (s.setFl v) = .next (t.setFl v) := by
  cases i with
  | cmp a b => exact absurd rfl hcmp
  | jeq r => exact absurd rfl hjeq
  | jne r => exact absurd rfl hjne
  | _ => exact ⟨_, rfl, rfl, rfl⟩

/-- The E bit depends on bit 0 of `fl` alone (10_state.md R27). -/
theorem State.setFl_flagE_of_mod_two {s : State} {v : Byte} (h : v.toNat % 2 = s.fl.toNat % 2) :
    (s.setFl v).flagE = s.flagE := by
  rw [State.flagE_eq, State.flagE_eq, State.setFl_fl, h]

/-- Two flag values that agree in bit 0 give the same result but for `fl`; for CMP any two do. -/
theorem exec_setFl_eq_up_to_fl {i : Instr} {s : State} {v : Byte}
    (h : i.mnemonic = .cmp ∨ v.toNat % 2 = s.fl.toNat % 2) :
    ∃ t, exec i s = .next t ∧ ∃ u, exec i (s.setFl v) = .next u ∧ u.setFl 0 = t.setFl 0 := by
  cases i with
  | jeq r =>
    have hE := State.setFl_flagE_of_mod_two (h.resolve_left nofun)
    exact ⟨_, exec_jeq r s, _, exec_jeq r _, by rw [hE]; rfl⟩
  | jne r =>
    have hE := State.setFl_flagE_of_mod_two (h.resolve_left nofun)
    exact ⟨_, exec_jne r s, _, exec_jne r _, by rw [hE]; rfl⟩
  | _ => exact ⟨_, rfl, _, rfl, rfl⟩

/-! ## The step by what decode answers -/

/-- A byte that no tag has is rejected by decode (30_encoding.md R88). -/
theorem decode_of_tagOf_eq_none {f : Fetched} (h : opcodeMap.tagOf f.op = none) :
    decode f = .error (.illegalOpcode f.op) := by
  rcases decodeWith_cases opcodeMap f with ⟨t, ht, -⟩ | ⟨-, hd⟩
  · rw [h] at ht; cases ht
  · exact hd

/-- `step_cases` with its first case told by decode's answer, as the statements tell it. -/
theorem step_decode_cases {s t : State} (h : step s = .next t) :
    s.run = .running ∧
      ((decode s.fetch = .error (.illegalOpcode s.fetch.op) ∧
          t = s.raiseIllegalOpcode s.fetch.op) ∨
        ∃ d u, decode s.fetch = .ok d ∧ exec d.instr s = .next u ∧ t = u.advancePc d) := by
  obtain ⟨hrun, ⟨hn, ht⟩ | hok⟩ := step_cases h
  · exact ⟨hrun, .inl ⟨decode_of_tagOf_eq_none hn, ht⟩⟩
  · exact ⟨hrun, .inr hok⟩

/-! ## The invariant -/

/-- CMP assigns one of three legal values, a conditional jump 0, and no other instruction writes `fl`. -/
theorem exec_keeps_flags_legal {i : Instr} {s t : State} (hs : FlagsLegal s.fl)
    (h : exec i s = .next t) : FlagsLegal t.fl := by
  rcases exec_fl_cases h with ⟨a, b, -, hfl⟩ | ⟨-, hfl⟩ | hfl
  · rw [hfl]; exact compareFlags_legal _ _
  · exact .inl hfl
  · rw [hfl]; exact hs

/-- An execute part writes at most one cell, and a write keeps the canonical form. -/
theorem exec_keeps_mem_wf {i : Instr} {s t : State} (hs : s.mem.wf) (h : exec i s = .next t) :
    t.mem.wf := by
  rcases exec_mem_cases h with ⟨-, v, hm⟩ | hm
  · rw [hm]; exact State.memWrite_wf hs s.pushAddr v
  · rw [hm]; exact hs

theorem step_keeps_inv {s t : State} (hs : s.Inv) (h : step s = .next t) : t.Inv := by
  obtain ⟨hm, hfl⟩ := hs
  obtain ⟨-, ⟨-, rfl⟩ | ⟨d, u, -, hu, rfl⟩⟩ := step_decode_cases h
  · exact ⟨hm, hfl⟩
  · rw [State.Inv, State.advancePc_mem, State.advancePc_fl]
    exact ⟨exec_keeps_mem_wf hm hu, exec_keeps_flags_legal hfl hu⟩

/-- The state a run starts from meets the invariant: the image load writes inside the memory, and
reset clears `fl`. -/
theorem boot_inv {image : List Byte} {s : State} (h : boot image = .next s) : s.Inv := by
  unfold boot loadImage at h
  split at h
  · next hfits =>
    cases h
    have hlen : 0 + image.length ≤ Config.memorySize := by simpa [imageFits] using hfits
    exact ⟨Memory.wf_writeFrom image Memory.wf_reset hlen, .inl rfl⟩
  · cases h

/-- What every step keeps holds of every state that a run reaches. -/
theorem Reaches.keeps {P : State → Prop} (hstep : ∀ {s t : State}, P s → step s = .next t → P t)
    {s t : State} (h : Reaches s t) (hs : P s) : P t := by
  induction h with
  | refl => exact hs
  | tail _ hlast ih => exact hstep ih hlast

end Sys2Proof.Machine
end

section
/-! PROOFS of the family 10_state.md: the statements, settled through the rules above. -/

namespace Sys2Proof.Machine

/-- Settles O17: an execute part keeps both halves of the invariant, and pc's advance and the exception
touch neither. -/
theorem everyStepKeepsTheInvariant : Obligations.EveryStepKeepsTheInvariant :=
  fun _ _ hs h => step_keeps_inv hs h

/-- Settles O18, by induction on the run, from the state that boot answers. -/
theorem everyReachableStateMeetsTheInvariant : Obligations.EveryReachableStateMeetsTheInvariant := by
  intro s hs
  obtain ⟨image, start, hboot, hreach⟩ := hs
  exact hreach.keeps step_keeps_inv (boot_inv hboot)

/-- Settles O24: the exception faults, HLT halts, and every other instruction leaves the run state, which
was RUNNING. -/
theorem runStateIsLeftOnlyByHltOrUnknownOpcode :
    Obligations.RunStateIsLeftOnlyByHltOrUnknownOpcode := by
  intro s t h
  obtain ⟨hrun, ⟨hd, rfl⟩ | ⟨d, u, hd, hu, rfl⟩⟩ := step_decode_cases h
  · simp [hd]
  · rcases exec_run_cases hu with ⟨hi, hr⟩ | ⟨hi, hr⟩
    · simp [hd, hi, hr]
    · simp [hd, hi, hr, hrun]

/-- Settles O39, a clause at a time: the writers by their execute parts, then the two
noninterference rules. -/
theorem flagsAreWrittenByCmpAndSpentByConditionalJumps :
    Obligations.FlagsAreWrittenByCmpAndSpentByConditionalJumps := by
  refine ⟨fun a b s => ⟨_, exec_cmp a b s, ?_⟩, fun r s => ⟨_, exec_jeq r s, rfl⟩,
    fun r s => ⟨_, exec_jne r s, rfl⟩, rfl, fun i s v => exec_setFl_of_not_flag_instr s v,
    fun i s v => exec_setFl_eq_up_to_fl⟩
  rcases compareFlags_cases (s.reg a) (s.reg b) with ⟨-, hfl⟩ | ⟨-, hfl⟩ | ⟨-, hfl⟩
  · exact .inl hfl
  · exact .inr (.inl hfl)
  · exact .inr (.inr hfl)

/-- Settles O40: the exception leaves `fl`, and so does every execute part but the three. -/
theorem aStepChangesFlagsOnlyByCmpJeqJne : Obligations.AStepChangesFlagsOnlyByCmpJeqJne := by
  intro s t h hne
  obtain ⟨-, ⟨-, rfl⟩ | ⟨d, u, hd, hu, rfl⟩⟩ := step_decode_cases h
  · exact absurd rfl hne
  · refine ⟨d, hd, ?_⟩
    rw [State.advancePc_fl] at hne
    rcases exec_fl_cases hu with ⟨a, b, hi, -⟩ | ⟨hi, -⟩ | hfl
    · exact .inl (by rw [hi]; rfl)
    · exact .inr hi
    · exact absurd hfl hne

/-- Settles O41: the exception leaves `out`, and so does every execute part but PRN's. -/
theorem onlyPrnAppendsToTheOutput : Obligations.OnlyPrnAppendsToTheOutput := by
  refine ⟨rfl, fun s t h => ?_⟩
  obtain ⟨-, ⟨hd, rfl⟩ | ⟨d, u, hd, hu, rfl⟩⟩ := step_decode_cases h
  · simp [hd]
  · rcases exec_out_cases hu with ⟨r, hi, hout⟩ | ⟨hi, hout⟩
    · refine ⟨fun d' r' hd' hprn => ?_, fun hno => absurd (by rw [hi]; rfl) (hno d hd)⟩
      cases hd.symm.trans hd'
      cases hi.symm.trans hprn
      rw [State.advancePc_out, hout]
    · refine ⟨fun d' r hd' hprn => ?_, fun _ => by rw [State.advancePc_out, hout]⟩
      cases hd.symm.trans hd'
      exact absurd (by rw [hprn]; rfl) hi

/-- Settles O10, by the register file's own law. -/
theorem registerHoldsWhatWasLastWritten : Obligations.RegisterHoldsWhatWasLastWritten :=
  fun s r v => ⟨s.setReg_reg r v, rfl, rfl, rfl, rfl, rfl⟩

/-- Settles O22: only the exception leads to FAULTED, and its record is the fetched byte with the pc it
leaves unchanged. -/
theorem faultRecordHoldsTheOpcodeAndItsPc : Obligations.FaultRecordHoldsTheOpcodeAndItsPc := by
  intro s t r h hr
  rw [State.fault_eq_some_iff] at hr
  obtain ⟨hrun, ⟨-, rfl⟩ | ⟨d, u, -, hu, rfl⟩⟩ := step_decode_cases h
  · cases hr
    exact ⟨rfl, rfl, rfl⟩
  · rw [State.advancePc_run] at hr
    rcases exec_run_cases hu with ⟨-, hu'⟩ | ⟨-, hu'⟩
    · rw [hu'] at hr; cases hr
    · rw [hu', hrun] at hr; cases hr

end Sys2Proof.Machine
end

section
/-! PROOFS of the family 20_memory.md: the statements, settled through the law of a read after a write. -/

namespace Sys2Proof.Machine

/-- Settles O12, by induction on the list from its end: the last write either names the cell that is
read, or the read is as after the writes before it. -/
theorem readReturnsTheMostRecentWrite : Obligations.ReadReturnsTheMostRecentWrite := by
  intro ws s a
  induction ws using List.reverseRecOn with
  | nil => rfl
  | append_singleton ws w ih =>
    rw [List.foldl_concat, State.memWrite_memRead, List.reverse_concat]
    by_cases h : w.1 = a
    · simp [h]
    · rw [if_neg (Ne.symm h), List.find?_cons_of_neg (by simpa using h), ih]

/-- Settles O11: the cells by the memory's own law; the write touches no other component. -/
theorem memoryWriteChangesOneCell : Obligations.MemoryWriteChangesOneCell :=
  fun s a v => ⟨s.memWrite_memRead a v, fun _ => rfl, rfl, rfl, rfl, rfl⟩

end Sys2Proof.Machine
end

section
/-! PROOFS of the family 30_encoding.md: the operand bytes and the instruction they carry, each way,
then the statements. -/

namespace Sys2Proof

/-! ## Operand bytes -/

/-- The operand byte of a decoded register is the fetched byte with bits 7:3 cleared
(30_encoding.md R83, R92). -/
@[simp] theorem regByte_regOperand (b : Byte) : regByte (regOperand b) = b &&& 7 := by
  apply BitVec.eq_of_toNat_eq
  have hmask := Nat.and_two_pow_sub_one_eq_mod b.toNat 3
  have h7 : (7 : Byte).toNat = 2 ^ 3 - 1 := rfl
  rw [regByte, regOperand_val, BitVec.toNat_ofNat, BitVec.toNat_and, h7, hmask]
  omega

/-- Only the low three bits of a register operand byte count (10_state.md R22). -/
theorem regOperand_eq_iff {a b : Byte} :
    regOperand a = regOperand b ↔ a.toNat % 8 = b.toNat % 8 := by
  rw [Fin.ext_iff, regOperand_val, regOperand_val]

/-- The bytes of an instruction give it back under its own tag, whatever follows them. -/
theorem assemble_operandBytes (i : Instr) (rest : List Byte) :
    assemble i.mnemonic ((operandBytes i ++ rest).getD 0 0) ((operandBytes i ++ rest).getD 1 0) = i := by
  cases i <;> simp [Instr.mnemonic, operandBytes, assemble, immOperand]

/-- The operand bytes of an assembled instruction: as many of the two bytes as its tag has operands,
register bytes with bits 7:3 cleared (30_encoding.md R82 to R84). -/
theorem operandBytes_assemble (t : Mnemonic) (a b : Byte) :
    operandBytes (assemble t a b) =
      [a &&& 7, if t = .ldi then b else b &&& 7].take t.operandCount := by
  cases t <;> simp [assemble, operandBytes, immOperand, Mnemonic.operandCount]

/-- An operand byte counts only if the tag has the operand, and beyond its register only for LDI
(30_encoding.md R83 to R85). -/
theorem assemble_congr {t : Mnemonic} {a b a' b' : Byte}
    (ha : 1 ≤ t.operandCount → regOperand a = regOperand a')
    (hb : t.operandCount = 2 → regOperand b = regOperand b') (himm : t = .ldi → b = b') :
    assemble t a b = assemble t a' b' := by
  cases t with
  | ldi => rw [assemble, assemble, ha (by decide), himm rfl]
  | add | mul | cmp => simp only [assemble, ha (by decide), hb rfl]
  | prn | push | pop | call | jmp | jeq | jne => simp only [assemble, ha (by decide)]
  | ret | hlt => rfl

/-! ## Decode of a legal byte -/

/-- Under a well-formed map the byte of a tag decodes to the instruction of that tag, with the count
and the sets-PC column of the instruction list (30_encoding.md R87, R91). -/
theorem decodeWith_byteOf {m : OpcodeMap} (hm : m.wf = true) (t : Mnemonic) (a b : Byte) :
    decodeWith m ⟨m.byteOf t, a, b⟩ = .ok ⟨assemble t a b, t.operandCount, t.setsPc⟩ := by
  obtain ⟨hdist, hcount, hpc⟩ := OpcodeMap.wf_tag hm t
  simp only [decodeWith, OpcodeMap.tagOf_byteOf hdist, hcount, hpc]

theorem decode_byteOf (t : Mnemonic) (a b : Byte) :
    decode ⟨opcodeMap.byteOf t, a, b⟩ = .ok ⟨assemble t a b, t.operandCount, t.setsPc⟩ :=
  decodeWith_byteOf opcodeMap_wf t a b

/-! ## The statements -/

/-- Settles O5: the fetched opcode is the byte of the instruction's tag, and the operand bytes assemble
to the instruction whatever follows them. -/
theorem decodeInvertsEncodeUnderEveryWellFormedMap :
    Obligations.DecodeInvertsEncodeUnderEveryWellFormedMap := by
  intro m hm i rest
  have hdec := decodeWith_byteOf hm i.mnemonic
    ((operandBytes i ++ rest).getD 0 0) ((operandBytes i ++ rest).getD 1 0)
  rw [assemble_operandBytes] at hdec
  exact hdec

/-- Settles O3: an illegal byte is rejected whatever follows it, and for the byte of a tag the two
pairs of operand bytes assemble alike. -/
theorem ignoredOperandBitsMakeNoDifference : Obligations.IgnoredOperandBitsMakeNoDifference := by
  intro op a b a' b' ha hb himm
  cases htag : opcodeMap.tagOf op with
  | none =>
    rw [Machine.decode_of_tagOf_eq_none (f := ⟨op, a, b⟩) htag,
      Machine.decode_of_tagOf_eq_none (f := ⟨op, a', b'⟩) htag]
  | some t =>
    obtain rfl := OpcodeMap.byteOf_of_tagOf htag
    obtain ⟨-, hcount, -⟩ := OpcodeMap.wf_tag opcodeMap_wf t
    rw [← opCount_eq, hcount] at ha hb
    have hasm : assemble t a b = assemble t a' b' :=
      assemble_congr (fun h => regOperand_eq_iff.mpr (ha h)) (fun h => regOperand_eq_iff.mpr (hb h))
        (fun h => himm (by rw [h]; rfl))
    rw [decode_byteOf, decode_byteOf, hasm]

/-- Settles O6, by the operand bytes of the assembled instruction, for each operand count. -/
theorem encodeGivesBackTheFetchedBytes : Obligations.EncodeGivesBackTheFetchedBytes := by
  intro f d h
  obtain ⟨t, hbyte, hinstr, htag, -, -⟩ := decode_ok h
  obtain ⟨hcount, -⟩ := decode_ok_shape h
  have henc : encode d.instr =
      f.op :: [f.a &&& 7, if t = .ldi then f.b else f.b &&& 7].take t.operandCount := by
    rw [encode, encodeWith, htag, hbyte, hinstr, operandBytes_assemble]
  have hle : t.operandCount ≤ 2 := by cases t <;> decide
  rw [henc, hcount, htag]
  refine ⟨?_, rfl, fun h1 => ?_, fun h2 => ?_⟩
  · simpa using hle
  · rw [List.getElem?_cons_succ, List.getElem?_take_of_lt h1]; rfl
  · rw [List.getElem?_cons_succ, List.getElem?_take_of_lt h2]; rfl

/-- Settles O1: each byte written out is the map's byte of its tag. -/
theorem everyOpcodeByteDecodesWithItsOperandFields :
    Obligations.EveryOpcodeByteDecodesWithItsOperandFields := by
  intro A B
  simp only [← regOperand_eq_ofNat]
  exact ⟨decode_byteOf .add A B, decode_byteOf .mul A B, decode_byteOf .cmp A B,
    decode_byteOf .ldi A B, decode_byteOf .prn A B, decode_byteOf .push A B, decode_byteOf .pop A B,
    decode_byteOf .call A B, decode_byteOf .ret A B, decode_byteOf .jmp A B, decode_byteOf .jeq A B,
    decode_byteOf .jne A B, decode_byteOf .hlt A B⟩

/-- Settles O4, by what decode delivers and the fields of the opcode byte as quotients. -/
theorem descriptorCarriesTagCountAndSetsPcFlag :
    Obligations.DescriptorCarriesTagCountAndSetsPcFlag := by
  intro f d h
  obtain ⟨t, hbyte, -, htag, hcount, hpc⟩ := decode_ok h
  exact ⟨by rw [htag, hbyte], by rw [hcount, opCount_eq], by rw [hpc, opSetsPc_eq]⟩

end Sys2Proof
end

section
/-! PROOFS of the family 40_cycle.md, its layer of rules: what the step gives in each run state and for
each answer of decode, and what a run under fuel gives before and at its end. -/

namespace Sys2Proof.Machine

/-! ## The step, one equation for each of its cases -/

/-- No execute part faults or is refused (40_cycle.md R105). -/
theorem exec_answers (i : Instr) (s : State) : ∃ t, exec i s = .next t := by
  cases i <;> exact ⟨_, rfl⟩

theorem step_of_halted {s : State} (h : s.run = .halted) : step s = .fault .noStepHalted := by
  rw [step, h]

theorem step_of_faulted {s : State} {r : FaultRecord} (h : s.run = .faulted r) :
    step s = .fault (.noStepFaulted r) := by
  rw [step, h]

/-- An unknown opcode takes the exception (40_cycle.md R104). -/
theorem step_of_tagOf_eq_none {s : State} (hrun : s.run = .running)
    (h : opcodeMap.tagOf s.fetch.op = none) : step s = .next (s.raiseIllegalOpcode s.fetch.op) := by
  rw [step, hrun, decode_of_tagOf_eq_none h]

/-- A decoded instruction is executed, then pc advanced (40_cycle.md R105 to R107). -/
theorem step_of_decode_ok {s t : State} {d : Descriptor} (hrun : s.run = .running)
    (hd : decode s.fetch = .ok d) (ht : exec d.instr s = .next t) :
    step s = .next (t.advancePc d) := by
  rw [step, hrun, hd]
  simp only [ht, advanceOutcome]

/-- A step exists in RUNNING (40_cycle.md R100), whether or not the fetched bytes decode. -/
theorem step_answers_of_running {s : State} (hrun : s.run = .running) : ∃ t, step s = .next t := by
  rcases decodeWith_cases opcodeMap s.fetch with ⟨_, -, hd⟩ | ⟨hn, -⟩
  · obtain ⟨t, ht⟩ := exec_answers _ s
    exact ⟨_, step_of_decode_ok hrun hd ht⟩
  · exact ⟨_, step_of_tagOf_eq_none hrun hn⟩

/-- Every instruction's byte is one of the thirteen written out (30_encoding.md R86). -/
theorem byteOf_mem_legalOpcodes (t : Mnemonic) : opcodeMap.byteOf t ∈ legalOpcodes := by
  cases t <;> decide

theorem tagOf_eq_none_of_notMem_legalOpcodes {op : Byte} (h : op ∉ legalOpcodes) :
    opcodeMap.tagOf op = none :=
  OpcodeMap.tagOf_eq_none.mpr fun t ht => h (ht ▸ byteOf_mem_legalOpcodes t)

/-! ## Addresses as numbers modulo 256 (decision D1) -/

theorem byte_add_ofNat (b : Byte) (k : Nat) :
    b + BitVec.ofNat 8 k = BitVec.ofNat 8 ((b.toNat + k) % 256) :=
  BitVec.eq_of_toNat_eq (by simp)

/-- The advancement of pc with its wrap written out (40_cycle.md R106, R107). -/
theorem State.advancePc_eq_mod (s : State) (d : Descriptor) :
    s.advancePc d = if d.setsPc then s
      else s.setPc (BitVec.ofNat 8 ((s.pc.toNat + d.operandCount + 1) % 256)) := by
  rw [State.advancePc, byte_add_ofNat, ← Nat.add_assoc]

/-! ## Runs under fuel -/

theorem State.fault_of_running {s : State} (h : s.run = .running) : s.fault = none := by
  rw [State.fault, h]

/-- A final state is reported with any fuel, none included (40_cycle.md R111). -/
theorem runFuel_of_final {s : State} (h : s.Final) (n : Nat) : runFuel n s = .ended s := by
  cases hrun : s.run with
  | running => exact absurd hrun h
  | halted | faulted => unfold runFuel; simp only [hrun]

theorem runFuel_zero_of_running {s : State} (h : s.run = .running) :
    runFuel 0 s = .noAnswer := by
  rw [runFuel, h]

/-- Each step costs one unit of fuel. -/
theorem runFuel_succ_of_step {s t : State} (h : step s = .next t) (n : Nat) :
    runFuel (n + 1) s = runFuel n t := by
  rw [runFuel, (step_cases h).1]
  simp only [h]

/-- A reported end is the state itself, which is final, or the end reported one step on. -/
theorem runFuel_ended_cases {n : Nat} {s t : State} (h : runFuel n s = .ended t) :
    (s.Final ∧ t = s) ∨
      ∃ m u, n = m + 1 ∧ step s = .next u ∧ runFuel m u = .ended t := by
  by_cases hrun : s.run = .running
  · obtain ⟨u, hu⟩ := step_answers_of_running hrun
    cases n with
    | zero => rw [runFuel_zero_of_running hrun] at h; cases h
    | succ m => exact .inr ⟨m, u, rfl, hu, runFuel_succ_of_step hu m ▸ h⟩
  · rw [runFuel_of_final hrun] at h
    cases h
    exact .inl ⟨hrun, rfl⟩

/-- What a run under fuel reports is an end of the run. -/
theorem reaches_final_of_runFuel {n : Nat} {s t : State} (h : runFuel n s = .ended t) :
    Reaches s t ∧ t.Final := by
  obtain ⟨hfin, rfl⟩ | ⟨m, u, rfl, hu, hend⟩ := runFuel_ended_cases h
  · exact ⟨.refl, hfin⟩
  · obtain ⟨hreach, hfin⟩ := reaches_final_of_runFuel hend
    exact ⟨.head hu hreach, hfin⟩
termination_by n

/-- An end of the run is reported with as much fuel as it has steps. -/
theorem runFuel_of_reaches_final {s t : State} (h : Reaches s t) (hfin : t.Final) :
    ∃ n, runFuel n s = .ended t := by
  induction h using Relation.ReflTransGen.head_induction_on with
  | refl => exact ⟨0, runFuel_of_final hfin 0⟩
  | head hstep _ ih =>
    obtain ⟨n, hn⟩ := ih
    exact ⟨n + 1, by rw [runFuel_succ_of_step hstep, hn]⟩

/-- More fuel does not change a reported end. -/
theorem runFuel_add {n : Nat} {s t : State} (k : Nat) (h : runFuel n s = .ended t) :
    runFuel (n + k) s = .ended t := by
  obtain ⟨hfin, rfl⟩ | ⟨m, u, rfl, hu, hend⟩ := runFuel_ended_cases h
  · exact runFuel_of_final hfin _
  · rw [Nat.succ_add, runFuel_succ_of_step hu, runFuel_add k hend]
termination_by n

/-! ## A step that leads back to its own state -/

/-- JMP to its own address changes nothing (40_cycle.md R112). -/
theorem step_jmp_self {s : State} {r : Reg} {d : Descriptor} (hrun : s.run = .running)
    (hd : decode s.fetch = .ok d) (hi : d.instr = .jmp r) (hr : s.reg r = s.pc) :
    step s = .next s := by
  have hexec : exec d.instr s = .next s := by
    rw [hi, exec_jmp, State.target, hr]; rfl
  have hpc : d.setsPc = true := by
    rw [(decode_ok_shape hd).2, hi]; rfl
  rw [step_of_decode_ok hrun hd hexec, State.advancePc, if_pos hpc]

theorem Reaches.eq_of_step_self {s t : State} (hself : step s = .next s) (h : Reaches s t) :
    t = s :=
  h.keeps (P := (· = s)) (fun hu hstep => by subst hu; cases hself.symm.trans hstep; rfl) rfl

theorem runFuel_of_step_self {s : State} (hself : step s = .next s) (n : Nat) :
    runFuel n s = .noAnswer := by
  induction n with
  | zero => exact runFuel_zero_of_running (step_cases hself).1
  | succ n ih => rw [runFuel_succ_of_step hself, ih]

end Sys2Proof.Machine
end

section
/-! PROOFS of the family 40_cycle.md: the statements, settled through the rules above. -/

namespace Sys2Proof.Machine

/-- Settles O23: in RUNNING decode's two answers both lead to a next state, and the other two run states
are stops. -/
theorem aStepExistsExactlyWhenRunning : Obligations.AStepExistsExactlyWhenRunning :=
  fun _ => ⟨⟨step_answers_of_running, fun ⟨_, h⟩ => (step_cases h).1⟩, step_of_halted,
    fun _ => step_of_faulted⟩

/-- Settles O51: soundness and monotonicity by induction on the fuel, completeness by induction on the
run from its end. -/
theorem fuelRunReportsExactlyTheEndsOfRuns : Obligations.FuelRunReportsExactlyTheEndsOfRuns :=
  ⟨fun _ _ => ⟨fun ⟨_, h⟩ => reaches_final_of_runFuel h,
    fun ⟨hreach, hfin⟩ => runFuel_of_reaches_final hreach hfin⟩,
    fun _ k _ _ h => runFuel_add k h⟩

/-- Settles O52: the step is the identity, so the run stays in its first state, which is RUNNING. -/
theorem jumpToItselfNeverEnds : Obligations.JumpToItselfNeverEnds := by
  intro s r d hrun hd hi hr
  have hself := step_jmp_self hrun hd hi hr
  refine ⟨hself, fun t ht => ?_, runFuel_of_step_self hself⟩
  rw [ht.eq_of_step_self hself, State.fault_of_running hrun]

/-- Settles O19, by the sum of a byte and a number as a remainder. -/
theorem fetchReadsThreeBytesFromPc : Obligations.FetchReadsThreeBytesFromPc :=
  fun s => ⟨rfl, congrArg s.memRead (byte_add_ofNat s.pc 1),
    congrArg s.memRead (byte_add_ofNat s.pc 2)⟩

/-- Settles O20: every execute part answers, and the step advances pc after it. -/
theorem stepRunsTheDecodedInstruction : Obligations.StepRunsTheDecodedInstruction := by
  intro s d hrun hd
  obtain ⟨t, ht⟩ := exec_answers d.instr s
  exact ⟨t, ht, by rw [step_of_decode_ok hrun hd ht, State.advancePc_eq_mod]⟩

/-- Settles O21: a byte that is none of the thirteen has no tag, and the exception writes `run` alone. -/
theorem unknownOpcodeTakesTheExceptionAndChangesNothingElse :
    Obligations.UnknownOpcodeTakesTheExceptionAndChangesNothingElse := by
  intro s hrun hop
  have hstep := step_of_tagOf_eq_none hrun (tagOf_eq_none_of_notMem_legalOpcodes hop)
  exact ⟨_, hstep, rfl, rfl, rfl, rfl, rfl, fun _ => rfl, fun _ => rfl, rfl⟩

end Sys2Proof.Machine
end

section
/-! PROOFS of the family 41_alu.md: what a register write leaves of the register file, CMP's flags by the
registers' numbers, then the statements. -/

namespace Sys2Proof.Machine

/-! ## Rules -/

/-- A register write leaves every other register (10_state.md R21). -/
theorem State.setReg_sameRegsExcept (s : State) (r : Reg) (v : Byte) :
    SameRegsExcept s (s.setReg r v) [r] :=
  fun _ hq => s.setReg_reg_other v (List.ne_of_not_mem_cons hq)

/-- The flags CMP assigns, with equality too told by the unsigned values (41_alu.md R123). -/
theorem compareFlags_eq_ite_toNat (x y : Byte) :
    compareFlags x y =
      if x.toNat = y.toNat then 0x01 else if y.toNat < x.toNat then 0x02 else 0x04 := by
  simp only [compareFlags, BitVec.toNat_inj]

/-! ## The statements -/

/-- Settles O26: ADD is one register write, of the exact sum reduced modulo 256. -/
theorem addWritesTheSumModulo256 : Obligations.AddWritesTheSumModulo256 := by
  refine ⟨fun A B => ?_, fun a b s => ⟨_, exec_add a b s, ?_, s.setReg_sameRegsExcept a _, rfl, rfl,
    fun _ => rfl, rfl, rfl⟩⟩
  · simp only [← regOperand_eq_ofNat]
    exact decode_byteOf .add A B
  · rw [State.setReg_reg_same, aluAdd_toNat]

/-- Settles O27: MUL is one register write, of the low byte of the exact product. -/
theorem mulWritesTheLowByteOfTheProduct : Obligations.MulWritesTheLowByteOfTheProduct := by
  refine ⟨fun A B => ?_, fun a b s => ⟨_, exec_mul a b s, ?_, s.setReg_sameRegsExcept a _, rfl, rfl,
    fun _ => rfl, rfl, rfl⟩⟩
  · simp only [← regOperand_eq_ofNat]
    exact decode_byteOf .mul A B
  · rw [State.setReg_reg_same, aluMul_toNat]

/-- Settles O28: CMP is one assignment of the flags register and writes no other component. -/
theorem cmpAssignsExactlyOneFlag : Obligations.CmpAssignsExactlyOneFlag := by
  refine ⟨fun A B => ?_, fun a b s => ⟨_, exec_cmp a b s, ?_, fun _ _ => rfl, rfl, fun _ => rfl, rfl,
    rfl⟩⟩
  · simp only [← regOperand_eq_ofNat]
    exact decode_byteOf .cmp A B
  · exact compareFlags_eq_ite_toNat (s.reg a) (s.reg b)

end Sys2Proof.Machine
end

section
/-! PROOFS of the family 42_data.md: pc after a step on the byte of an instruction that leaves pc to the
advance, then the statements. -/

namespace Sys2Proof.Machine

/-! ## Rules -/

/-- The fetch at the byte of a tag decodes to that tag's instruction (40_cycle.md R101, R102). -/
theorem decode_fetch_of_byteOf {s : State} {m : Mnemonic}
    (hop : s.memRead s.pc = opcodeMap.byteOf m) :
    decode s.fetch = .ok ⟨assemble m s.fetch.a s.fetch.b, m.operandCount, m.setsPc⟩ := by
  rw [← decode_byteOf, ← hop]; rfl

/-- Only the instructions with "Sets PC directly?" write pc in the execute part (40_cycle.md R106). -/
theorem exec_pc_of_not_setsPc {i : Instr} {s t : State} (hi : i.mnemonic.setsPc = false)
    (h : exec i s = .next t) : t.pc = s.pc := by
  cases i with
  | call | ret | jmp | jeq | jne => cases hi
  | _ => cases h; rfl

/-- A step on the byte of such an instruction moves pc behind its operands, modulo 256 (40_cycle.md R106,
decision D1). -/
theorem step_pc_of_byteOf {s : State} {m : Mnemonic} (hrun : s.run = .running)
    (hop : s.memRead s.pc = opcodeMap.byteOf m) (hm : m.setsPc = false) :
    ∃ t, step s = .next t ∧ t.pc.toNat = (s.pc.toNat + m.operandCount + 1) % 256 := by
  obtain ⟨u, hu⟩ := exec_answers (assemble m s.fetch.a s.fetch.b) s
  have hpc : u.pc = s.pc := exec_pc_of_not_setsPc (by rw [assemble_mnemonic, hm]) hu
  refine ⟨_, step_of_decode_ok hrun (decode_fetch_of_byteOf hop) hu, ?_⟩
  rw [State.advancePc_pc, hm, hpc]
  simp [Nat.add_assoc]

/-! ## The statements -/

/-- Settles O29: LDI is one register write, and its two operand bytes put the next instruction at
pc + 3. -/
theorem ldiLoadsTheImmediate : Obligations.LdiLoadsTheImmediate := by
  refine ⟨fun A B => ?_, fun r v s => ⟨_, exec_ldi r v s, s.setReg_reg_same r v,
    s.setReg_sameRegsExcept r v, rfl, rfl, fun _ => rfl, rfl, rfl⟩,
    fun s hrun hop => step_pc_of_byteOf (m := .ldi) hrun hop rfl⟩
  rw [← regOperand_eq_ofNat]
  exact decode_byteOf .ldi A B

/-- Settles O30: PRN appends one output event and writes no other component, and its operand byte puts
the next instruction at pc + 2. -/
theorem prnAppendsTheRegisterToTheOutput : Obligations.PrnAppendsTheRegisterToTheOutput := by
  refine ⟨fun A B => ?_, fun r s => ⟨_, exec_prn r s, rfl, fun _ _ => rfl, rfl, rfl, fun _ => rfl, rfl⟩,
    fun s hrun hop => step_pc_of_byteOf (m := .prn) hrun hop rfl⟩
  rw [← regOperand_eq_ofNat]
  exact decode_byteOf .prn A B

end Sys2Proof.Machine
end

section
/-! PROOFS of the family 43_stack.md: the states PUSH and POP lead to, component by component, what a
sequence of execute parts gives, what a balanced sequence of pushes and pops gives back, then the
statements. -/

namespace Sys2Proof.Machine

/-! ## The state after PUSH (43_stack.md R161) -/

/-- The state PUSH leads to. -/
def State.afterPush (s : State) (r : Reg) : State := s.decSp.storeAtSp (s.decSp.reg r)

theorem exec_push_afterPush (r : Reg) (s : State) : exec (.push r) s = .next (s.afterPush r) := rfl

@[simp] theorem State.afterPush_sp (s : State) (r : Reg) : (s.afterPush r).sp = s.sp - 1 :=
  s.decSp_sp

theorem State.afterPush_reg_other (s : State) (r : Reg) {q : Reg} (hq : q ≠ 7) :
    (s.afterPush r).reg q = s.reg q :=
  s.setReg_reg_other _ hq

theorem State.afterPush_memRead (s : State) (r : Reg) (x : Byte) :
    (s.afterPush r).memRead x =
      if x = s.sp - 1 then (if r = 7 then s.sp - 1 else s.reg r) else s.memRead x := by
  rw [State.afterPush, State.storeAtSp_memRead, State.decSp_sp, State.decSp_reg, State.decSp_memRead]
  rfl

/-- What PUSH stored stands at the new SP; PUSH R7 stored the decremented SP (decision D16). -/
theorem State.afterPush_memRead_sp (s : State) (r : Reg) :
    (s.afterPush r).memRead (s.sp - 1) = if r = 7 then s.sp - 1 else s.reg r := by
  rw [State.afterPush_memRead, if_pos rfl]

theorem State.afterPush_memRead_other (s : State) (r : Reg) {x : Byte} (hx : x ≠ s.sp - 1) :
    (s.afterPush r).memRead x = s.memRead x := by
  rw [State.afterPush_memRead, if_neg hx]

/-! ## The state after POP (43_stack.md R162) -/

theorem State.incSp_reg_other (s : State) {q : Reg} (hq : q ≠ 7) : s.incSp.reg q = s.reg q :=
  s.setReg_reg_other _ hq

/-- The state POP leads to. -/
def State.afterPop (s : State) (r : Reg) : State := (s.setReg r (s.memRead s.sp)).incSp

theorem exec_pop_afterPop (r : Reg) (s : State) : exec (.pop r) s = .next (s.afterPop r) := rfl

@[simp] theorem State.afterPop_memRead (s : State) (r : Reg) (x : Byte) :
    (s.afterPop r).memRead x = s.memRead x := rfl

/-- POP into R7 increments the popped byte (decision D16). -/
theorem State.afterPop_sp_seven (s : State) : (s.afterPop 7).sp = s.memRead s.sp + 1 := by
  rw [State.afterPop, State.incSp_sp, State.sp, spReg, State.setReg_reg_same]

theorem State.afterPop_sp_of_ne (s : State) {r : Reg} (hr : r ≠ 7) :
    (s.afterPop r).sp = s.sp + 1 := by
  rw [State.afterPop, State.incSp_sp, State.sp, spReg, State.setReg_reg_other s _ hr.symm]
  rfl

theorem State.afterPop_reg_same (s : State) {r : Reg} (hr : r ≠ 7) :
    (s.afterPop r).reg r = s.memRead s.sp := by
  rw [State.afterPop, State.incSp_reg_other _ hr, State.setReg_reg_same]

theorem State.afterPop_reg_other (s : State) {r q : Reg} (hqr : q ≠ r) (hq : q ≠ 7) :
    (s.afterPop r).reg q = s.reg q := by
  rw [State.afterPop, State.incSp_reg_other _ hq, State.setReg_reg_other s _ hqr]

/-! ## Sequences of execute parts (20_memory.md R60) -/

theorem execAll_cons {i : Instr} {s t : State} (h : exec i s = .next t) (is : List Instr) :
    execAll (i :: is) s = execAll is t := by
  simp only [execAll, h]

theorem execAll_append {is : List Instr} {s t : State} (h : execAll is s = .next t)
    (js : List Instr) : execAll (is ++ js) s = execAll js t := by
  induction is generalizing s with
  | nil => cases h; rfl
  | cons i is ih =>
    obtain ⟨u, hu⟩ := exec_answers i s
    rw [execAll_cons hu] at h
    rw [List.cons_append, execAll_cons hu, ih h]

/-! ## Balanced pushes and pops (43_stack.md R160) -/

/-- `a` is none of the `n` cells that `n` pushes from `s` fill, going down from SP and wrapping
(decision D1): counted upwards from SP, it comes before the lowest of them. -/
def OutsidePushes (n : Nat) (s : State) (a : Byte) : Prop := (a - s.sp).toNat + n < 256

/-- Fewer than 256 pushes do not come round to the cell at SP. -/
theorem outsidePushes_sp {n : Nat} (s : State) (hn : n < 256) : OutsidePushes n s s.sp := by
  simpa [OutsidePushes] using hn

/-- A cell outside `n + 1` pushes is not the one the first of them fills, and lies outside the other
`n`. -/
theorem OutsidePushes.afterPush {n : Nat} {s : State} {a : Byte} (h : OutsidePushes (n + 1) s a)
    (r : Reg) : a ≠ s.sp - 1 ∧ OutsidePushes n (s.afterPush r) a := by
  unfold OutsidePushes at *
  rw [State.afterPush_sp]
  constructor <;> bv_omega

/-- `t` is `s` but for the cells that `n` pushes from `s` fill. -/
structure RestoredAfter (n : Nat) (s t : State) : Prop where
  reg : ∀ q, t.reg q = s.reg q
  memRead : ∀ a, OutsidePushes n s a → t.memRead a = s.memRead a
  fl : t.fl = s.fl
  pc : t.pc = s.pc
  run : t.run = s.run
  out : t.out = s.out

theorem RestoredAfter.refl (n : Nat) (s : State) : RestoredAfter n s s :=
  ⟨fun _ => rfl, fun _ _ => rfl, rfl, rfl, rfl, rfl⟩

/-- A PUSH before and a POP of the same register after what restores the pushed state restore the state
before: the stored byte lies outside the pushes in between, so the POP reads it back. -/
theorem RestoredAfter.push_pop {n : Nat} {s t : State} {r : Reg} (hn : n < 256) (hr : r ≠ 7)
    (h : RestoredAfter n (s.afterPush r) t) : RestoredAfter (n + 1) s (t.afterPop r) where
  reg q := by
    have hsp : t.sp = s.sp - 1 := (h.reg spReg).trans (s.afterPush_sp r)
    have htop : t.memRead t.sp = s.reg r := by
      have hout := outsidePushes_sp (s.afterPush r) hn
      rw [State.afterPush_sp] at hout
      rw [hsp, h.memRead _ hout, State.afterPush_memRead_sp, if_neg hr]
    by_cases hq : q = 7
    · subst hq
      calc (t.afterPop r).sp = t.sp + 1 := t.afterPop_sp_of_ne hr
        _ = s.sp := by rw [hsp, BitVec.sub_add_cancel]
    by_cases hqr : q = r
    · rw [hqr, t.afterPop_reg_same hr, htop]
    · rw [t.afterPop_reg_other hqr hq, h.reg, s.afterPush_reg_other r hq]
  memRead a ha := by
    obtain ⟨hne, hout⟩ := ha.afterPush r
    rw [State.afterPop_memRead, h.memRead a hout, s.afterPush_memRead_other r hne]
  fl := h.fl
  pc := h.pc
  run := h.run
  out := h.out

/-- Pushing up to 256 registers other than R7 and popping them in reverse order restores the state but
for the cells the pushes filled. -/
theorem execAll_push_pop_restores {rs : List Reg} (hlen : rs.length ≤ 256) (h7 : ∀ r ∈ rs, r ≠ 7)
    (s : State) :
    ∃ t, execAll (rs.map Instr.push ++ rs.reverse.map Instr.pop) s = .next t ∧
      RestoredAfter rs.length s t := by
  induction rs generalizing s with
  | nil => exact ⟨s, rfl, .refl _ s⟩
  | cons r rs ih =>
    rw [List.length_cons] at hlen
    obtain ⟨hr, hrs⟩ := List.forall_mem_cons.mp h7
    obtain ⟨t, ht, hback⟩ := ih (by omega) hrs (s.afterPush r)
    refine ⟨t.afterPop r, ?_, hback.push_pop (by omega) hr⟩
    rw [List.map_cons, List.cons_append, execAll_cons (exec_push_afterPush r s), List.reverse_cons,
      List.map_append, ← List.append_assoc, execAll_append ht]
    rfl

/-! ## The statements -/

/-- Settles O31: PUSH is a write of SP and a write of the cell at the new SP. -/
theorem pushStoresBelowTheStackPointer : Obligations.PushStoresBelowTheStackPointer := by
  intro r s
  refine ⟨_, exec_push_afterPush r s, ?_⟩
  rw [State.pushAddr_eq]
  exact ⟨by bv_omega, s.afterPush_sp r, s.afterPush_memRead_sp r,
    fun _ hx => s.afterPush_memRead_other r hx,
    fun _ hq => s.afterPush_reg_other r (List.ne_of_not_mem_cons hq), rfl, rfl, rfl, rfl⟩

/-- Settles O32: POP is a write of the register and a write of SP, in this order. -/
theorem popLoadsTheTopOfTheStack : Obligations.PopLoadsTheTopOfTheStack := by
  intro r s
  refine ⟨_, exec_pop_afterPop r s, fun hr => ⟨s.afterPop_reg_same hr, ?_⟩, fun hr => ?_,
    fun _ => rfl, fun q hq => ?_, rfl, rfl, rfl, rfl⟩
  · rw [s.afterPop_sp_of_ne hr]
    bv_omega
  · rw [hr, s.afterPop_sp_seven]
    bv_omega
  · rw [List.mem_pair, not_or] at hq
    exact s.afterPop_reg_other hq.1 hq.2

/-- Settles O47: the POP reads the cell the PUSH stored to, and its increment undoes the decrement
unless the popped register is SP itself. -/
theorem pushThenPopCopiesTheRegister : Obligations.PushThenPopCopiesTheRegister := by
  intro r1 r2 s
  have hrun : execAll [.push r1, .pop r2] s = .next ((s.afterPush r1).afterPop r2) := rfl
  have htop : (s.afterPush r1).memRead (s.afterPush r1).sp =
      if r1 = 7 then s.sp - 1 else s.reg r1 := by
    rw [State.afterPush_sp, State.afterPush_memRead_sp]
  have hsp (hr : r2 ≠ 7) : ((s.afterPush r1).afterPop r2).sp = s.sp := by
    rw [State.afterPop_sp_of_ne _ hr, State.afterPush_sp, BitVec.sub_add_cancel]
  refine ⟨_, hrun, fun hr => ⟨?_, hsp hr⟩, fun hr => ?_, fun q hq => ?_, fun x hx => ?_,
    rfl, rfl, rfl, rfl⟩
  · rw [State.afterPop_reg_same _ hr, htop]
  · rw [hr, State.afterPop_sp_seven, htop]
  · have hq2 : q ≠ r2 := List.ne_of_not_mem_cons hq
    by_cases hq7 : q = 7
    · subst hq7
      exact hsp hq2.symm
    · rw [State.afterPop_reg_other _ hq2 hq7, s.afterPush_reg_other r1 hq7]
  · rw [State.pushAddr_eq] at hx
    rw [State.afterPop_memRead, s.afterPush_memRead_other r1 hx]

/-- Settles O48, by induction on the list: each PUSH and its POP stand around a shorter balanced
sequence, which leaves the cell between them alone. -/
theorem balancedPushesAndPopsRestoreTheRegisters :
    Obligations.BalancedPushesAndPopsRestoreTheRegisters := by
  intro rs s hlen h7
  obtain ⟨t, ht, hback⟩ := execAll_push_pop_restores hlen h7 s
  exact ⟨t, ht, fun q _ => hback.reg q, hback.fl, hback.pc, hback.run, hback.out⟩

end Sys2Proof.Machine
end

section
/-! PROOFS of the family 44_control.md: the states CALL and RET lead to, component by component, where a
conditional jump leads by the parity of `fl`, what a step on a sets-PC instruction gives, then the
statements. -/

namespace Sys2Proof.Machine

/-! ## The state after CALL (44_control.md R181) -/

/-- The state CALL leads to. -/
def State.afterCall (s : State) (r : Reg) : State :=
  (s.decSp.storeAtSp s.pcPlus2).setPc (s.decSp.reg r)

theorem exec_call_afterCall (r : Reg) (s : State) : exec (.call r) s = .next (s.afterCall r) := rfl

@[simp] theorem State.afterCall_sp (s : State) (r : Reg) : (s.afterCall r).sp = s.sp - 1 :=
  s.decSp_sp

/-- CALL R7 jumps to the decremented SP (decision D16). -/
theorem State.afterCall_pc (s : State) (r : Reg) :
    (s.afterCall r).pc = if r = 7 then s.sp - 1 else s.reg r :=
  s.decSp_reg r

theorem State.afterCall_reg_other (s : State) (r : Reg) {q : Reg} (hq : q ≠ 7) :
    (s.afterCall r).reg q = s.reg q :=
  s.setReg_reg_other _ hq

theorem State.afterCall_memRead (s : State) (r : Reg) (x : Byte) :
    (s.afterCall r).memRead x = if x = s.sp - 1 then s.pc + 2 else s.memRead x := by
  rw [State.afterCall, State.setPc_memRead, State.storeAtSp_memRead, State.decSp_sp,
    State.decSp_memRead, State.pcPlus2]

/-- The return address stands at the new SP. -/
theorem State.afterCall_memRead_sp (s : State) (r : Reg) :
    (s.afterCall r).memRead (s.sp - 1) = s.pc + 2 := by
  rw [State.afterCall_memRead, if_pos rfl]

theorem State.afterCall_memRead_other (s : State) (r : Reg) {x : Byte} (hx : x ≠ s.sp - 1) :
    (s.afterCall r).memRead x = s.memRead x := by
  rw [State.afterCall_memRead, if_neg hx]

/-! ## The state after RET (44_control.md R182) -/

/-- The state RET leads to. -/
def State.afterRet (s : State) : State := (s.setPc (s.memRead s.sp)).incSp

theorem exec_ret_afterRet (s : State) : exec .ret s = .next s.afterRet := rfl

@[simp] theorem State.afterRet_sp (s : State) : s.afterRet.sp = s.sp + 1 :=
  (s.setPc _).incSp_sp

@[simp] theorem State.afterRet_pc (s : State) : s.afterRet.pc = s.memRead s.sp := rfl

@[simp] theorem State.afterRet_memRead (s : State) (x : Byte) :
    s.afterRet.memRead x = s.memRead x := rfl

theorem State.afterRet_reg_other (s : State) {q : Reg} (hq : q ≠ 7) :
    s.afterRet.reg q = s.reg q :=
  (s.setPc _).incSp_reg_other hq

/-! ## RET straight after CALL -/

/-- RET reads the return address that CALL stored. -/
theorem State.afterCall_afterRet_pc (s : State) (r : Reg) :
    (s.afterCall r).afterRet.pc = s.pc + 2 := by
  rw [State.afterRet_pc, State.afterCall_sp, State.afterCall_memRead_sp]

/-- RET's increment undoes CALL's decrement, and neither writes another register. -/
theorem State.afterCall_afterRet_reg (s : State) (r q : Reg) :
    (s.afterCall r).afterRet.reg q = s.reg q := by
  by_cases hq : q = 7
  · subst hq
    calc (s.afterCall r).afterRet.sp = s.sp - 1 + 1 := by rw [State.afterRet_sp, State.afterCall_sp]
      _ = s.sp := BitVec.sub_add_cancel _ _
  · rw [State.afterRet_reg_other _ hq, s.afterCall_reg_other r hq]

/-! ## Conditional jumps (44_control.md R184, R185) -/

/-- E is bit 0 of `fl`, so JEQ branches exactly when `fl` is odd. -/
theorem exec_jeq_pc {r : Reg} {s t : State} (h : exec (.jeq r) s = .next t) :
    t.pc = if s.fl.toNat % 2 = 1 then s.reg r else s.pc + 2 := by
  cases h
  simp only [State.clearFlags_pc, State.setPc_pc, State.flagE_eq, decide_eq_true_eq, State.target,
    State.pcPlus2]

/-- JNE branches exactly when `fl` is even. -/
theorem exec_jne_pc {r : Reg} {s t : State} (h : exec (.jne r) s = .next t) :
    t.pc = if s.fl.toNat % 2 = 1 then s.pc + 2 else s.reg r := by
  cases h
  simp only [State.clearFlags_pc, State.setPc_pc, State.flagE_eq, decide_eq_true_eq, State.target,
    State.pcPlus2]

/-- A conditional jump clears the flags, whether or not it branches (10_state.md R28). -/
theorem exec_conditional_fl {c : Instr} {q : Reg} {s t : State} (hc : c = .jeq q ∨ c = .jne q)
    (h : exec c s = .next t) : t.fl = 0 := by
  rcases hc with rfl | rfl <;> cases h <;> rfl

/-! ## The step on an instruction that sets pc -/

/-- The step leaves the pc that a sets-PC instruction wrote (40_cycle.md R107). -/
theorem step_of_setsPc {s t : State} {d : Descriptor} (hrun : s.run = .running)
    (hd : decode s.fetch = .ok d) (hpc : d.instr.mnemonic.setsPc = true)
    (ht : exec d.instr s = .next t) : step s = .next t := by
  rw [step_of_decode_ok hrun hd ht, State.advancePc, (decode_ok_shape hd).2, if_pos hpc]

theorem step_call {s : State} {r : Reg} {d : Descriptor} (hrun : s.run = .running)
    (hd : decode s.fetch = .ok d) (hi : d.instr = .call r) : step s = .next (s.afterCall r) := by
  apply step_of_setsPc hrun hd <;> rw [hi]
  · rfl
  · exact exec_call_afterCall r s

theorem step_ret {s : State} (hrun : s.run = .running) (hop : s.memRead s.pc = opcodeMap.ret) :
    step s = .next s.afterRet :=
  step_of_setsPc hrun (decode_fetch_of_byteOf (m := .ret) hop) rfl (exec_ret_afterRet s)

/-! ## The statements -/

/-- Settles O33: CALL is a write of SP, a write of the cell at the new SP and a write of pc, whose target
is read after SP is decremented. -/
theorem callPushesTheReturnAddressAndJumps : Obligations.CallPushesTheReturnAddressAndJumps := by
  intro r s
  refine ⟨_, exec_call_afterCall r s, ?_⟩
  rw [State.pushAddr_eq, State.afterCall_memRead_sp]
  exact ⟨by bv_omega, s.afterCall_sp r, by bv_omega, fun _ hx => s.afterCall_memRead_other r hx,
    s.afterCall_pc r, fun _ hq => s.afterCall_reg_other r (List.ne_of_not_mem_cons hq), rfl, rfl, rfl⟩

/-- Settles O49: the step that runs CALL and the step that runs RET write no component but those of their
execute parts, and RET takes back what CALL pushed. -/
theorem callThenRetReturns : Obligations.CallThenRetReturns := by
  intro s t r d hrun hd hi hstep hret
  cases hstep.symm.trans (step_call hrun hd hi)
  exact ⟨_, step_ret hrun hret, s.afterCall_afterRet_pc r, fun q _ => s.afterCall_afterRet_reg r q,
    rfl, hrun, rfl, fun _ hx => s.afterCall_memRead_other r hx⟩

/-- Settles O34: RET is a write of pc and a write of SP. -/
theorem retPopsThePc : Obligations.RetPopsThePc := by
  refine ⟨decode_byteOf .ret, fun s => ⟨_, exec_ret_afterRet s, s.afterRet_pc, ?_, s.afterRet_memRead,
    fun _ hq => s.afterRet_reg_other (List.ne_of_not_mem_cons hq), rfl, rfl, rfl⟩⟩
  rw [State.afterRet_sp]
  bv_omega

/-- Settles O35: JMP is a write of pc. -/
theorem jmpLoadsThePc : Obligations.JmpLoadsThePc := by
  refine ⟨fun A B => ?_, fun r s => ⟨_, exec_jmp r s, rfl, fun _ => rfl, fun _ _ => rfl, rfl, rfl, rfl⟩⟩
  rw [← regOperand_eq_ofNat]
  exact decode_byteOf .jmp A B

/-- Settles O36: JEQ writes pc, by the parity of `fl`, and clears `fl`. -/
theorem jeqBranchesOnEqualAndClearsTheFlags : Obligations.JeqBranchesOnEqualAndClearsTheFlags := by
  refine ⟨fun A B => ?_, fun r s => ⟨_, exec_jeq r s, fun hE => ?_, fun hE => ?_, rfl, fun _ => rfl,
    fun _ _ => rfl, rfl, rfl⟩⟩
  · rw [← regOperand_eq_ofNat]
    exact decode_byteOf .jeq A B
  · rw [exec_jeq_pc (exec_jeq r s), if_pos hE]
  · rw [exec_jeq_pc (exec_jeq r s), if_neg (by omega)]
    bv_omega

/-- Settles O37: JNE writes pc, by the parity of `fl`, and clears `fl`. -/
theorem jneBranchesOnNotEqualAndClearsTheFlags :
    Obligations.JneBranchesOnNotEqualAndClearsTheFlags := by
  refine ⟨fun A B => ?_, fun r s => ⟨_, exec_jne r s, fun hE => ?_, fun hE => ?_, rfl, fun _ => rfl,
    fun _ _ => rfl, rfl, rfl⟩⟩
  · rw [← regOperand_eq_ofNat]
    exact decode_byteOf .jne A B
  · rw [exec_jne_pc (exec_jne r s), if_neg (by omega)]
  · rw [exec_jne_pc (exec_jne r s), if_pos hE]
    bv_omega

/-- Settles O38: HLT writes `run`, and the step's advance moves pc past its one byte. -/
theorem hltHaltsAndChangesNothingElse : Obligations.HltHaltsAndChangesNothingElse := by
  refine ⟨fun s => ⟨_, exec_hlt s, rfl, rfl, fun _ => rfl, fun _ _ => rfl, rfl, rfl⟩,
    fun s hrun hop => ?_⟩
  obtain ⟨t, hstep, hpc⟩ := step_pc_of_byteOf (m := .hlt) hrun hop rfl
  have hhalt := step_of_decode_ok hrun (decode_fetch_of_byteOf (m := .hlt) hop) (exec_hlt s)
  cases hstep.symm.trans hhalt
  exact ⟨_, hhalt, State.advancePc_run _ _, hpc⟩

/-- Settles O50: the first jump leaves `fl` 0, which is even. -/
theorem afterAConditionalJumpJeqFallsThroughAndJneBranches :
    Obligations.AfterAConditionalJumpJeqFallsThroughAndJneBranches := by
  intro c q r s hc
  obtain ⟨t, ht⟩ := exec_answers c s
  have heven : ¬ t.fl.toNat % 2 = 1 := by rw [exec_conditional_fl hc ht]; decide
  exact ⟨t, ht, ⟨_, exec_jeq r t, (exec_jeq_pc (exec_jeq r t)).trans (if_neg heven)⟩,
    ⟨_, exec_jne r t, (exec_jne_pc (exec_jne r t)).trans (if_neg heven)⟩⟩

end Sys2Proof.Machine
end

section
/-! PROOFS of the family 70_reset_and_hazards.md: the host's reading, by the run state. -/

namespace Sys2Proof.Machine

variable {s : State}

theorem hostResult_of_halted (h : s.run = .halted) : hostResult s = some ⟨0, none, s.out⟩ := by
  rw [hostResult, h]

theorem hostResult_of_faulted {r : FaultRecord} (h : s.run = .faulted r) :
    hostResult s = some ⟨1, some r, s.out⟩ := by
  rw [hostResult, h]

theorem hostResult_of_running (h : s.run = .running) : hostResult s = none := by
  rw [hostResult, h]

/-- Settles O53, a run state at a time. -/
theorem hostReadsHaltedAsExit0AndFaultedAsExit1 :
    Obligations.HostReadsHaltedAsExit0AndFaultedAsExit1 :=
  fun _ => ⟨hostResult_of_halted, fun _ => hostResult_of_faulted, hostResult_of_running⟩

end Sys2Proof.Machine
end

section
/-! PROOFS of the family other, the encoding: the thirteen bytes as the bytes of the tags, the fields of
each tag's byte, then the statements about decode. -/

namespace Sys2Proof

/-! ## The thirteen bytes -/

/-- The thirteen bytes written out are the bytes of the tags (30_encoding.md R86). -/
theorem mem_legalOpcodes_iff {op : Byte} :
    op ∈ Machine.legalOpcodes ↔ ∃ t, opcodeMap.byteOf t = op := by
  have hmap : Machine.legalOpcodes = Mnemonic.all.map opcodeMap.byteOf := rfl
  simp [hmap, Mnemonic.mem_all]

/-- No two tags have the same byte (30_encoding.md R87). -/
theorem opcodeMap_byteOf_injective {t u : Mnemonic}
    (h : opcodeMap.byteOf t = opcodeMap.byteOf u) : t = u := by
  obtain ⟨hdist, -⟩ := OpcodeMap.wf_tag opcodeMap_wf t
  have htag := OpcodeMap.tagOf_byteOf hdist t
  rw [h, OpcodeMap.tagOf_byteOf hdist u] at htag
  exact (Option.some.inj htag).symm

/-- Bit 5 is set for the ALU group alone (30_encoding.md R81, decision D20). -/
theorem opAluBit_byteOf (t : Mnemonic) :
    opAluBit (opcodeMap.byteOf t) = decide (t = .add ∨ t = .mul ∨ t = .cmp) := by
  cases t <;> decide

/-- Decode rejects exactly the bytes that no tag has (30_encoding.md R88). -/
theorem decode_eq_illegalOpcode_iff {f : Fetched} :
    decode f = .error (.illegalOpcode f.op) ↔ opcodeMap.tagOf f.op = none :=
  ⟨fun h => (decode_error h).2, Machine.decode_of_tagOf_eq_none⟩

/-! ## Opcode-table words -/

/-- What reading a table word as `i` says of decode: its descriptor is the one the instruction list gives
`i` (30_encoding.md R91). -/
theorem decode_ofWord {nbits w : Nat} {i : Instr} (h : decodeTableWord nbits w = some i) :
    decode (Fetched.ofWord nbits w) = .ok (describe i) := by
  unfold decodeTableWord at h
  split at h
  · next d hd =>
    cases h
    obtain ⟨hcount, hpc⟩ := decode_ok_shape hd
    rw [hd, describe, ← hcount, ← hpc]
  · cases h

/-! ## The statements -/

/-- Settles O2: a byte is rejected when no tag has it, and the tags' bytes are the thirteen. -/
theorem everyOtherOpcodeByteIsRejected : Obligations.EveryOtherOpcodeByteIsRejected := by
  intro f
  rw [decode_eq_illegalOpcode_iff, OpcodeMap.tagOf_eq_none, mem_legalOpcodes_iff, not_exists]

/-- Settles O7: the fields and the distinct bytes are what the map's well-formedness says; bit 5 is read
off each byte. -/
theorem opcodeMapKeepsTheStructuralConstraints :
    Obligations.OpcodeMapKeepsTheStructuralConstraints := by
  refine ⟨fun t => ?_, fun t u => opcodeMap_byteOf_injective⟩
  obtain ⟨-, hcount, hpc⟩ := OpcodeMap.wf_tag opcodeMap_wf t
  exact ⟨hcount, hpc, opAluBit_byteOf t⟩

/-- Settles O8, by running the decoder on the six words. -/
theorem sampleTableWordsDecode : Obligations.SampleTableWordsDecode := by
  unfold Obligations.SampleTableWordsDecode
  decide

end Sys2Proof
end

section
/-! PROOFS of the family other, the text of an instruction: splitting a line, reading a register and a
decimal number back from their texts, then the statement. -/

namespace Sys2Proof.Machine

/-! ## Splitting -/

theorem splitAtChar_of_notMem {c : Char} {xs : List Char} (h : c ∉ xs) :
    splitAtChar c xs = (xs, none) := by
  induction xs with
  | nil => rfl
  | cons x xs ih =>
    rw [List.mem_cons, not_or] at h
    obtain ⟨hx, hxs⟩ := h
    rw [splitAtChar, if_neg (Ne.symm hx), ih hxs]

theorem splitAtChar_append_cons {c : Char} {xs : List Char} (h : c ∉ xs) (ys : List Char) :
    splitAtChar c (xs ++ c :: ys) = (xs, some ys) := by
  induction xs with
  | nil => simp [splitAtChar]
  | cons x xs ih =>
    rw [List.mem_cons, not_or] at h
    obtain ⟨hx, hxs⟩ := h
    rw [List.cons_append, splitAtChar, if_neg (Ne.symm hx), ih hxs]

theorem dropSpaces_of_notMem {xs : List Char} (h : ' ' ∉ xs) : dropSpaces xs = xs := by
  cases xs with
  | nil => rfl
  | cons x xs => rw [dropSpaces, if_neg (Ne.symm (List.ne_of_not_mem_cons h))]

/-! ## Digits and numbers -/

theorem digitChar_toNat (n : Nat) : (digitChar n).toNat = 48 + n % 10 := by
  rw [digitChar, Char.toNat_ofNat, if_pos (.inl (by omega))]

/-- A character that is no decimal digit is not the character of one. -/
theorem digitChar_ne {c : Char} (h : c.toNat < 48 ∨ 57 < c.toNat) (n : Nat) : digitChar n ≠ c := by
  rintro rfl
  rw [digitChar_toNat] at h
  omega

theorem digitValue_digitChar {base n : Nat} (h : n % 10 < base) :
    digitValue base (digitChar n) = some (n % 10) := by
  have hdigit : 48 ≤ 48 + n % 10 ∧ 48 + n % 10 ≤ 57 := by omega
  simp only [digitValue, digitChar_toNat, if_pos hdigit, Nat.add_sub_cancel_left, if_pos h]

/-- One decimal digit read onto the number so far. -/
theorem readDigits_digitChar (acc n : Nat) (cs : List Char) :
    readDigits 10 acc (digitChar n :: cs) = readDigits 10 (acc * 10 + n % 10) cs := by
  rw [readDigits, digitValue_digitChar (by omega)]

/-- The decimal text of a number is read as the number, whether it has one, two or three digits. -/
theorem readDigits_decimalText {n : Nat} (h : n < 1000) :
    readDigits 10 0 (decimalText n) = some n := by
  unfold decimalText
  split
  · rw [readDigits_digitChar, readDigits]; congr 1; omega
  split
  · rw [readDigits_digitChar, readDigits_digitChar, readDigits]; congr 1; omega
  · rw [readDigits_digitChar, readDigits_digitChar, readDigits_digitChar, readDigits]; congr 1; omega

theorem decimalText_ne_nil (n : Nat) : decimalText n ≠ [] := by
  unfold decimalText
  split
  · exact List.cons_ne_nil _ _
  split <;> exact List.cons_ne_nil _ _

theorem notMem_decimalText {c : Char} (h : c.toNat < 48 ∨ 57 < c.toNat) (n : Nat) :
    c ∉ decimalText n := by
  have hne (k : Nat) : c ≠ digitChar k := (digitChar_ne h k).symm
  unfold decimalText
  split
  · simp [hne]
  split <;> simp [hne]

/-- A text without the letters that announce another base is read as decimal. -/
theorem readImm_of_readDigits {t : List Char} {v : Nat} (hne : t ≠ []) (hx : 'x' ∉ t) (hb : 'b' ∉ t)
    (h : readDigits 10 0 t = some v) (hv : v < 256) : readImm t = some (BitVec.ofNat 8 v) := by
  unfold readImm
  split
  · exact absurd rfl hne
  · simp at hx
  · simp at hb
  · simp at hx
  · simp at hb
  · simp only [h, if_pos hv]

/-- An immediate is read back from its decimal text (30_encoding.md R92). -/
theorem readImm_decimalText (v : Byte) : readImm (decimalText v.toNat) = some v := by
  have hdigits := readDigits_decimalText (n := v.toNat) (by omega)
  rw [readImm_of_readDigits (decimalText_ne_nil _) (notMem_decimalText (by decide) _)
    (notMem_decimalText (by decide) _) hdigits v.isLt, BitVec.ofNat_toNat, BitVec.setWidth_eq]

/-- A register is read back from its name (30_encoding.md R92). -/
theorem readReg_regText (r : Reg) : readReg (regText r) = some r := by
  revert r; decide

/-! ## Operands and lines -/

/-- A text that a line can carry as an operand: no separator stands in it. -/
def SeparatorFree (x : List Char) : Prop := ',' ∉ x ∧ ' ' ∉ x

theorem separatorFree_regText (r : Reg) : SeparatorFree (regText r) := by
  constructor <;> revert r <;> decide

theorem separatorFree_decimalText (n : Nat) : SeparatorFree (decimalText n) :=
  ⟨notMem_decimalText (by decide) n, notMem_decimalText (by decide) n⟩

theorem readOperands_one {x : List Char} (hx : SeparatorFree x) : readOperands (some x) = [x] := by
  obtain ⟨hcomma, hspace⟩ := hx
  simp only [readOperands, splitAtChar_of_notMem hcomma, dropSpaces_of_notMem hspace]

theorem readOperands_two {x y : List Char} (hx : SeparatorFree x) (hy : SeparatorFree y) :
    readOperands (some (x ++ ',' :: ' ' :: y)) = [x, y] := by
  obtain ⟨hcomma, hspace⟩ := hx
  simp only [readOperands, splitAtChar_append_cons hcomma, dropSpaces_of_notMem hspace, dropSpaces,
    if_pos, dropSpaces_of_notMem hy.2]

theorem space_notMem_mnemonicText (m : Mnemonic) : ' ' ∉ mnemonicText m := by
  cases m <;> decide

/-- A spelling names its mnemonic. -/
theorem find?_mnemonicText (m : Mnemonic) :
    Mnemonic.all.find? (fun t => mnemonicText t == mnemonicText m) = some m := by
  cases m <;> decide

theorem assembleLine_mnemonicText (m : Mnemonic) :
    assembleLine (mnemonicText m) = readInstr m [] := by
  simp only [assembleLine, splitAtChar_of_notMem (space_notMem_mnemonicText m), find?_mnemonicText,
    readOperands]

theorem assembleLine_mnemonicText_space (m : Mnemonic) (t : List Char) :
    assembleLine (mnemonicText m ++ ' ' :: t) = readInstr m (readOperands (some t)) := by
  simp only [assembleLine, splitAtChar_append_cons (space_notMem_mnemonicText m), find?_mnemonicText]

/-- The line of an instruction with one operand is read with that operand's text. -/
theorem assembleLine_asmText_one {i : Instr} {x : List Char} (hi : operandTexts i = [x])
    (hx : SeparatorFree x) : assembleLine (asmText i) = readInstr i.mnemonic [x] := by
  have htext : asmText i = mnemonicText i.mnemonic ++ ' ' :: x := by simp [asmText, hi]
  rw [htext, assembleLine_mnemonicText_space, readOperands_one hx]

/-- The line of an instruction with two operands is read with their texts. -/
theorem assembleLine_asmText_two {i : Instr} {x y : List Char} (hi : operandTexts i = [x, y])
    (hx : SeparatorFree x) (hy : SeparatorFree y) :
    assembleLine (asmText i) = readInstr i.mnemonic [x, y] := by
  have htext : asmText i = mnemonicText i.mnemonic ++ ' ' :: (x ++ ',' :: ' ' :: y) := by
    simp [asmText, hi]
  rw [htext, assembleLine_mnemonicText_space, readOperands_two hx hy]

/-! ## The statement -/

/-- Settles O9, by the instruction's format: the line splits into the mnemonic and the operand texts,
and each operand is read back from its text. -/
theorem everyInstructionAssemblesFromItsText : Obligations.EveryInstructionAssemblesFromItsText := by
  intro i
  cases i with
  | add a b | mul a b | cmp a b =>
    rw [assembleLine_asmText_two rfl (separatorFree_regText a) (separatorFree_regText b)]
    simp [Instr.mnemonic, readInstr, readReg_regText]
  | ldi r imm =>
    rw [assembleLine_asmText_two rfl (separatorFree_regText r) (separatorFree_decimalText imm.toNat)]
    simp [Instr.mnemonic, readInstr, readReg_regText, readImm_decimalText]
  | prn r | push r | pop r | call r | jmp r | jeq r | jne r =>
    rw [assembleLine_asmText_one rfl (separatorFree_regText r)]
    simp [Instr.mnemonic, readInstr, readReg_regText]
  | ret => exact assembleLine_mnemonicText .ret
  | hlt => exact assembleLine_mnemonicText .hlt

end Sys2Proof.Machine
end

section
/-! PROOFS of the family other, memory, reset and image load: the cells of a canonical memory told by its
reads, and what a read gives after a run of writes, then the statements. -/

namespace Sys2Proof.Machine

/-! ## Canonical memories -/

/-- A cell listed in rising order is what a read of its address gives. -/
theorem Memory.read_of_mem {m : Memory} (hm : m.Pairwise (fun c d => c.1 < d.1)) {c : Host.Cell}
    (hc : c ∈ m) : m.read c.1 = c.2 := by
  induction m with
  | nil => cases hc
  | cons d rest ih =>
    obtain ⟨hd, hrest⟩ := List.pairwise_cons.mp hm
    rcases List.mem_cons.mp hc with rfl | hc
    · exact if_pos rfl
    · exact (if_neg (Nat.ne_of_lt (hd c hc))).trans (ih hrest hc)

/-- A read that does not give what reset left gives a listed cell. -/
theorem Memory.mem_of_read_ne {m : Memory} {a : Nat} (h : m.read a ≠ Config.resetByte) :
    (a, m.read a) ∈ m := by
  induction m with
  | nil => exact absurd rfl h
  | cons d rest ih =>
    obtain ⟨k, b⟩ := d
    rw [Memory.read_cons] at h ⊢
    split at h
    · next hk => rw [if_pos hk, hk]; exact List.mem_cons_self
    · next hk => rw [if_neg hk]; exact List.mem_cons_of_mem _ (ih h)

/-- The cells of a canonical memory, told by its reads. -/
theorem Memory.mem_iff_read {m : Memory} (hm : m.wf) {c : Host.Cell} :
    c ∈ m ↔ c.1 < Config.memorySize ∧ c.2 ≠ Config.resetByte ∧ m.read c.1 = c.2 := by
  obtain ⟨hsorted, hcells⟩ := hm
  constructor
  · intro hc
    obtain ⟨hlt, hne⟩ := hcells c hc
    exact ⟨hlt, hne, Memory.read_of_mem hsorted hc⟩
  · rintro ⟨-, hne, hread⟩
    have hmem := Memory.mem_of_read_ne (hread ▸ hne)
    rwa [hread] at hmem

/-- Two lists of cells in rising order with the same cells are the same list. -/
theorem Memory.eq_of_mem_iff {m n : Memory} (hm : m.Pairwise (fun c d => c.1 < d.1))
    (hn : n.Pairwise (fun c d => c.1 < d.1)) (h : ∀ c, c ∈ m ↔ c ∈ n) : m = n := by
  have : Std.Irrefl (fun c d : Host.Cell => c.1 < d.1) := ⟨fun c => Nat.lt_irrefl c.1⟩
  have : Std.Antisymm (fun c d : Host.Cell => c.1 < d.1) :=
    ⟨fun _ _ hcd hdc => absurd hdc (Nat.lt_asymm hcd)⟩
  exact hm.eq_of_mem_iff hn h

/-! ## Reset and image load -/

/-- After bytes are written from `a` on, they are what is read there, and the rest is as before. -/
theorem Memory.read_writeFrom (vs : List Byte) (m : Memory) (a x : Nat) :
    (m.writeFrom a vs).read x =
      if a ≤ x ∧ x < a + vs.length then vs.getD (x - a) 0 else m.read x := by
  induction vs generalizing m a with
  | nil => rw [if_neg (by simp)]; rfl
  | cons v vs ih =>
    rw [Memory.writeFrom, ih, Memory.read_write, List.length_cons]
    rcases Nat.lt_trichotomy x a with hlt | rfl | hgt
    · rw [if_neg (by omega), if_neg (by omega), if_neg (by omega)]
    · rw [if_neg (by omega), if_pos rfl, if_pos (by omega), Nat.sub_self]; rfl
    · obtain ⟨k, rfl⟩ := Nat.exists_eq_add_of_lt hgt
      have hk : a + k + 1 - a = k + 1 := by omega
      have hk' : a + k + 1 - (a + 1) = k := by omega
      rw [hk, hk', List.getD_cons_succ]
      by_cases hend : k < vs.length
      · rw [if_pos (by omega), if_pos (by omega)]
      · rw [if_neg (by omega), if_neg (by omega), if_neg (by omega)]

/-- Every cell reads 0 at reset (10_state.md R36). -/
theorem State.reset_memRead (a : Byte) : State.reset.memRead a = 0 := rfl

/-- What boot answers for an image that fits (70_reset_and_hazards.md R240). -/
theorem boot_of_fits {image : List Byte} (h : image.length ≤ 256) :
    boot image = .next { State.reset with mem := Memory.writeFrom [] 0 image } :=
  if_pos (decide_eq_true h)

/-- A longer image is refused (70_reset_and_hazards.md R241). -/
theorem boot_of_too_long {image : List Byte} (h : 256 < image.length) :
    boot image = .refused (.imageTooLong image.length) := by
  have hfits : ¬ imageFits image = true := fun hle => by
    have : image.length ≤ 256 := of_decide_eq_true hle
    omega
  exact if_neg hfits

/-! ## The statements -/

/-- Settles O13: the reads settle which cells a canonical memory lists, and the order of the addresses
settles the list. -/
theorem canonicalMemoriesWithEqualCellsAreEqual :
    Obligations.CanonicalMemoriesWithEqualCellsAreEqual := by
  intro m n hm hn hread
  refine Memory.eq_of_mem_iff hm.1 hn.1 fun c => ?_
  rw [Memory.mem_iff_read hm, Memory.mem_iff_read hn]
  exact and_congr_right fun hlt => by rw [hread c.1 hlt]

/-- Settles O15: boot is reset with the image's bytes written from address 0 on, or the refusal. -/
theorem bootPlacesTheImageOrRefusesIt : Obligations.BootPlacesTheImageOrRefusesIt := by
  refine fun image => ⟨fun hlen => ⟨_, boot_of_fits hlen, fun a => ?_, fun _ => rfl, rfl, rfl, rfl,
    rfl⟩, boot_of_too_long⟩
  rw [State.memRead, Memory.read_writeFrom]
  by_cases ha : a.toNat < image.length
  · rw [if_pos (by omega), Nat.sub_zero]
  · rw [if_neg (by omega), List.getD_eq_default _ _ (by omega)]; rfl

/-- Settles O14: each component by evaluation, R0 to R6 register by register. -/
theorem resetLeavesTheStatedValues : Obligations.ResetLeavesTheStatedValues :=
  ⟨rfl, rfl, rfl, by decide, State.reset_memRead, rfl, rfl, rfl⟩

/-- Settles O16: the empty memory is canonical, and `fl` is 0. -/
theorem resetMeetsTheInvariant : Obligations.ResetMeetsTheInvariant := ⟨Memory.wf_reset, .inl rfl⟩

end Sys2Proof.Machine
end

section
/-! PROOFS of the family other, the step: pc after a step, the word that the next step fetches, and what
a step writes, then the statements. -/

namespace Sys2Proof.Machine

/-! ## pc after a step (40_cycle.md R110) -/

/-- An instruction that leaves pc to the advance moves it behind its operands (40_cycle.md R106). -/
theorem step_pc_of_not_setsPc {s : State} {d : Descriptor} (hrun : s.run = .running)
    (hd : decode s.fetch = .ok d) (hpc : d.instr.mnemonic.setsPc = false) :
    ∃ t, step s = .next t ∧ t.pc = s.pc + BitVec.ofNat 8 (d.instr.mnemonic.operandCount + 1) := by
  obtain ⟨u, hu⟩ := exec_answers d.instr s
  obtain ⟨hcount, hsets⟩ := decode_ok_shape hd
  refine ⟨_, step_of_decode_ok hrun hd hu, ?_⟩
  rw [State.advancePc_pc, hsets, hpc, hcount, exec_pc_of_not_setsPc hpc hu]
  rfl

/-- The step on a PUSH. -/
theorem step_push {s : State} {r : Reg} {d : Descriptor} (hrun : s.run = .running)
    (hd : decode s.fetch = .ok d) (hi : d.instr = .push r) :
    step s = .next ((s.afterPush r).setPc (s.pc + 2)) := by
  have hexec : exec d.instr s = .next (s.afterPush r) := by rw [hi, exec_push_afterPush]
  obtain ⟨hcount, hsets⟩ := decode_ok_shape hd
  rw [hi] at hcount hsets
  rw [step_of_decode_ok hrun hd hexec, State.advancePc, hsets, hcount]
  rfl

/-! ## The loader of one word (log entry 13) -/

theorem State.withFetchWord_fetch (s : State) (nbits w : Nat) :
    (s.withFetchWord nbits w).fetch = Fetched.ofWord nbits w :=
  s.storeFetched_fetch (Fetched.ofWord nbits w)

/-! ## What an instruction writes (10_state.md R24, 20_memory.md R54) -/

/-- An execute part leaves every register that the table does not list as written. -/
theorem exec_sameRegsExcept_regWrites {i : Instr} {s t : State} (h : exec i s = .next t) :
    SameRegsExcept s t (regWrites i) := by
  cases i with
  | add a b | mul a b => cases h; exact s.setReg_sameRegsExcept a _
  | ldi r imm => cases h; exact s.setReg_sameRegsExcept r imm
  | push r => cases h; exact fun _ hq => s.afterPush_reg_other r (List.ne_of_not_mem_cons hq)
  | call r => cases h; exact fun _ hq => s.afterCall_reg_other r (List.ne_of_not_mem_cons hq)
  | ret => cases h; exact fun _ hq => s.afterRet_reg_other (List.ne_of_not_mem_cons hq)
  | pop r =>
    cases h
    intro q hq
    rw [regWrites, List.mem_pair, not_or] at hq
    exact s.afterPop_reg_other hq.1 hq.2
  | cmp | prn | jmp | jeq | jne | hlt => cases h; exact fun _ _ => rfl

/-- An execute part that changes a cell is PUSH's or CALL's, and the cell is the one below SP. -/
theorem exec_memRead_ne {i : Instr} {s t : State} {a : Byte} (h : exec i s = .next t)
    (hne : t.memRead a ≠ s.memRead a) : a = s.sp - 1 ∧ (i.mnemonic = .push ∨ i.mnemonic = .call) := by
  rcases exec_mem_cases h with ⟨hi, v, hm⟩ | hm
  · refine ⟨?_, hi⟩
    have hread : t.memRead a = (s.memWrite s.pushAddr v).memRead a := by
      rw [State.memRead, hm, State.memRead]
    rw [hread, State.memWrite_memRead, State.pushAddr_eq] at hne
    by_contra ha
    exact hne (if_neg ha)
  · exact absurd (by rw [State.memRead, hm, State.memRead]) hne

/-! ## The statements -/

/-- Settles O25, by the table's rows: an instruction that does not set pc is followed by the advance, and
the five others leave the pc of their execute parts. -/
theorem nextPcIsThatOfTheTable : Obligations.NextPcIsThatOfTheTable := by
  rintro s ⟨i, n, p⟩ hrun hd
  cases i with
  | call r => exact ⟨_, step_call hrun hd rfl, s.afterCall_pc r⟩
  | ret => exact ⟨_, step_of_setsPc hrun hd rfl (exec_ret_afterRet s), s.afterRet_pc⟩
  | jmp r => exact ⟨_, step_of_setsPc hrun hd rfl (exec_jmp r s), rfl⟩
  | jeq r => exact ⟨_, step_of_setsPc hrun hd rfl (exec_jeq r s), exec_jeq_pc (exec_jeq r s)⟩
  | jne r =>
    refine ⟨_, step_of_setsPc hrun hd rfl (exec_jne r s), ?_⟩
    rw [exec_jne_pc (exec_jne r s)]
    rcases Nat.mod_two_eq_zero_or_one s.fl.toNat with h | h <;> simp [h]
  | add | mul | cmp | ldi | prn | push | pop | hlt => exact step_pc_of_not_setsPc hrun hd rfl

/-- Settles O42: the exception and the advance of pc leave the registers, and an execute part writes the
listed ones alone. -/
theorem aStepWritesOnlyTheRegistersOfTheTable : Obligations.AStepWritesOnlyTheRegistersOfTheTable := by
  intro s t r h hne
  obtain ⟨-, ⟨-, rfl⟩ | ⟨d, u, hd, hu, rfl⟩⟩ := step_decode_cases h
  · exact absurd rfl hne
  · rw [State.advancePc_reg] at hne
    exact ⟨d, hd, by_contra fun hr => hne (exec_sameRegsExcept_regWrites hu r hr)⟩

/-- Settles O44: the exception and the advance of pc leave the memory, and so does every execute part but
PUSH's and CALL's. -/
theorem aStepWritesMemoryOnlyByPushAndCall : Obligations.AStepWritesMemoryOnlyByPushAndCall := by
  intro s t a h hne
  obtain ⟨-, ⟨-, rfl⟩ | ⟨d, u, hd, hu, rfl⟩⟩ := step_decode_cases h
  · exact absurd rfl hne
  · rw [State.advancePc_memRead] at hne
    obtain ⟨ha, hi⟩ := exec_memRead_ne hu hne
    exact ⟨ha, d, hd, hi⟩

/-- Settles O46: the fetch and decode come before the store, so the store makes no difference to them, and
the next fetch reads the memory that the store left. -/
theorem aPushedByteIsSeenByTheNextFetch : Obligations.APushedByteIsSeenByTheNextFetch := by
  intro s r d hrun hd hi
  refine ⟨_, step_push hrun hd hi, rfl, s.afterPush_memRead_sp r, fun hnext => ?_⟩
  rw [← hnext]
  exact s.afterPush_memRead_sp r

/-- Settles O54: the next step fetches the stored word, and decode gives it the descriptor of `i`. -/
theorem aStoredTableWordIsWhatTheNextStepRuns :
    Obligations.AStoredTableWordIsWhatTheNextStepRuns := by
  intro s nbits w i h
  have hd : decode (s.withFetchWord nbits w).fetch = .ok (describe i) := by
    rw [State.withFetchWord_fetch, decode_ofWord h]
  obtain ⟨t, ht⟩ := exec_answers i (s.withFetchWord nbits w)
  exact ⟨t, ht, step_of_decode_ok rfl hd ht, rfl, fun _ => rfl, rfl, rfl⟩

end Sys2Proof.Machine
end

section
/-! PROOFS of the family other, what an instruction reads: how each update of the state goes past a write
of another register, and past a write of another cell, then the statements. -/

namespace Sys2Proof.Machine

/-! ## Updates past a register write -/

/-- A register write hides an earlier one of the same register. -/
theorem State.setReg_setReg_same (s : State) (r : Reg) (v w : Byte) :
    (s.setReg r v).setReg r w = s.setReg r w := by
  simp only [State.setReg, Vector.set_set]

theorem State.setReg_comm (s : State) {r q : Reg} (h : r ≠ q) (v w : Byte) :
    (s.setReg r v).setReg q w = (s.setReg q w).setReg r v := by
  simp only [State.setReg, Vector.set_comm v w (Fin.val_ne_of_ne h)]

section
variable {s : State} {r : Reg} (hr : r ≠ 7) (v w : Byte)
include hr

theorem State.setReg_sp_of_ne : (s.setReg r v).sp = s.sp := s.setReg_reg_other v hr.symm

theorem State.setReg_setSp : (s.setReg r v).setSp w = (s.setSp w).setReg r v :=
  s.setReg_comm hr v w

theorem State.setReg_decSp : (s.setReg r v).decSp = s.decSp.setReg r v := by
  rw [State.decSp, State.setReg_sp_of_ne hr, State.setReg_setSp hr, State.decSp]

theorem State.setReg_incSp : (s.setReg r v).incSp = s.incSp.setReg r v := by
  rw [State.incSp, State.setReg_sp_of_ne hr, State.setReg_setSp hr, State.incSp]

theorem State.setReg_loadAtSp : (s.setReg r v).loadAtSp = s.loadAtSp := by
  rw [State.loadAtSp, State.setReg_sp_of_ne hr, State.setReg_memRead, State.loadAtSp]

theorem State.setReg_storeAtSp : (s.setReg r v).storeAtSp w = (s.storeAtSp w).setReg r v := by
  rw [State.storeAtSp, State.setReg_sp_of_ne hr]
  rfl

end

/-- A register that an instruction neither reads nor writes can be changed before it or after it. -/
theorem exec_setReg_of_notMem_regWrites {i : Instr} {s t : State} {r : Reg} (v : Byte)
    (hr : r ∉ regReads i) (hw : r ∉ regWrites i) (h : exec i s = .next t) :
    exec i (s.setReg r v) = .next (t.setReg r v) := by
  have hread (u : State) (q : Reg) (hq : q ∈ regReads i) : (u.setReg r v).reg q = u.reg q :=
    u.setReg_reg_other v (ne_of_mem_of_not_mem hq hr)
  cases i with
  | add a b | mul a b =>
    cases h
    have ha : r ≠ a := List.ne_of_not_mem_cons hw
    simp only [exec_add, exec_mul, hread s a (by simp [regReads]), hread s b (by simp [regReads])]
    rw [s.setReg_comm ha]
  | cmp a b =>
    cases h
    rw [exec_cmp, hread s a (by simp [regReads]), hread s b (by simp [regReads])]
    rfl
  | ldi q imm =>
    cases h
    rw [exec_ldi, s.setReg_comm (List.ne_of_not_mem_cons hw)]
  | prn q | jmp q | jeq q | jne q =>
    cases h
    simp only [exec_prn, exec_jmp, exec_jeq, exec_jne, State.target, hread s q List.mem_cons_self]
    rfl
  | push q =>
    cases h
    have h7 : r ≠ 7 := List.ne_of_not_mem_cons hw
    rw [exec_push, State.setReg_decSp h7, hread s.decSp q (by simp [regReads]),
      State.setReg_storeAtSp h7]
  | call q =>
    cases h
    have h7 : r ≠ 7 := List.ne_of_not_mem_cons hw
    rw [exec_call, State.setReg_decSp h7, State.target, hread s.decSp q (by simp [regReads]),
      State.setReg_storeAtSp h7]
    rfl
  | pop q =>
    cases h
    have h7 : r ≠ 7 := List.ne_of_not_mem_cons hr
    rw [exec_pop, State.setReg_loadAtSp h7, s.setReg_comm (List.ne_of_not_mem_cons hw),
      State.setReg_incSp h7]
  | ret =>
    cases h
    have h7 : r ≠ 7 := List.ne_of_not_mem_cons hr
    rw [exec_ret, State.setReg_loadAtSp h7]
    exact congrArg _ (State.setReg_incSp (s := s.setPc s.loadAtSp) h7 v)
  | hlt => cases h; rfl

/-- What a register held before is lost when an instruction writes it and does not read it; only LDI and
POP write a register without reading it. -/
theorem exec_setReg_of_mem_regWrites {i : Instr} {s t : State} {r : Reg} (v : Byte)
    (hr : r ∉ regReads i) (hw : r ∈ regWrites i) (h : exec i s = .next t) :
    exec i (s.setReg r v) = .next t := by
  cases i with
  | ldi q imm =>
    cases h
    rw [exec_ldi, List.mem_singleton.mp hw, State.setReg_setReg_same]
  | pop q =>
    cases h
    have h7 : r ≠ 7 := List.ne_of_not_mem_cons hr
    have hq : r = q := (List.mem_pair.mp hw).resolve_right h7
    rw [exec_pop, State.setReg_loadAtSp h7, hq, State.setReg_setReg_same]
  | add | mul | push | call | ret =>
    exact absurd (List.mem_singleton.mp hw ▸ List.mem_cons_self) hr
  | cmp | prn | jmp | jeq | jne | hlt => cases hw

/-! ## Updates past a memory write -/

/-- A store at SP hides an earlier write of that cell; a write of another cell stands. -/
theorem State.memWrite_storeAtSp_memRead (s : State) (a v w x : Byte) :
    ((s.memWrite a v).storeAtSp w).memRead x =
      if x = a ∧ a ≠ s.sp then v else (s.storeAtSp w).memRead x := by
  rw [State.storeAtSp_memRead, State.storeAtSp_memRead, State.memWrite_sp, State.memWrite_memRead]
  by_cases hx : x = a
  · subst hx
    by_cases hsp : x = s.sp <;> simp [hsp]
  · simp [hx]

theorem State.memWrite_loadAtSp {s : State} {a : Byte} (ha : a ≠ s.sp) (v : Byte) :
    (s.memWrite a v).loadAtSp = s.loadAtSp :=
  (s.memWrite_memRead a v s.sp).trans (if_neg ha.symm)

/-- Changing a cell that the table does not list as read makes no difference but to that cell, and is
lost if the instruction stores there (20_memory.md R54). -/
theorem exec_memWrite {i : Instr} {s t : State} {a : Byte} (v : Byte)
    (ha : i.mnemonic = .pop ∨ i.mnemonic = .ret → a ≠ s.sp) (h : exec i s = .next t) :
    ∃ m : Memory, exec i (s.memWrite a v) = .next { t with mem := m } ∧
      ∀ x : Byte, m.read x.toNat = if x = a ∧ a ∉ memWrites i s then v else t.memRead x := by
  cases i with
  | push r | call r =>
    cases h
    refine ⟨_, rfl, fun x => (s.decSp.memWrite_storeAtSp_memRead a v _ x).trans ?_⟩
    simp only [memWrites, List.mem_singleton, State.pushAddr]
    rfl
  | pop r =>
    cases h
    refine ⟨(s.memWrite a v).mem, ?_, fun x => (s.memWrite_memRead a v x).trans ?_⟩
    · rw [exec_pop, State.memWrite_loadAtSp (ha (.inl rfl))]; rfl
    · simp [memWrites]
  | ret =>
    cases h
    refine ⟨(s.memWrite a v).mem, ?_, fun x => (s.memWrite_memRead a v x).trans ?_⟩
    · rw [exec_ret, State.memWrite_loadAtSp (ha (.inr rfl))]; rfl
    · simp [memWrites]
  | add | mul | cmp | ldi | prn | jmp | jeq | jne | hlt =>
    cases h
    exact ⟨(s.memWrite a v).mem, rfl, fun x => (s.memWrite_memRead a v x).trans (by simp [memWrites])⟩

/-! ## The statements -/

/-- Settles O43: every execute part goes past a write of a register that it does not read. -/
theorem anInstructionReadsOnlyTheRegistersOfTheTable :
    Obligations.AnInstructionReadsOnlyTheRegistersOfTheTable := by
  intro i s r v hr
  obtain ⟨t, ht⟩ := exec_answers i s
  refine ⟨t, ht, ?_⟩
  split
  · next hw => exact exec_setReg_of_mem_regWrites v hr hw ht
  · next hw => exact exec_setReg_of_notMem_regWrites v hr hw ht

/-- Settles O45: the two results differ in their memories alone, and there in the changed cell alone. -/
theorem anInstructionReadsMemoryOnlyAtTheStackPointer :
    Obligations.AnInstructionReadsMemoryOnlyAtTheStackPointer := by
  intro i s a v ha
  obtain ⟨t, ht⟩ := exec_answers i s
  obtain ⟨m, hu, hread⟩ := exec_memWrite v ha ht
  refine ⟨t, ht, _, hu, fun _ => rfl, rfl, rfl, rfl, rfl, fun x hx => ?_, ?_⟩
  · exact (hread x).trans (if_neg fun h => hx h.1)
  · refine (hread a).trans ?_
    by_cases hw : a ∈ memWrites i s <;> simp [hw]

end Sys2Proof.Machine
end
